-- ==== Sys2Proof/Word.lean ====
section
/-! DEFINITION. The word types of the block. Every value of the spec is unsigned and has a fixed width
(`00_scope.md` section 5); positions and addresses are plain naturals. -/

namespace Sys2Proof

/-- One byte of the stream, and the content of one written image cell (R3, R26). -/
abbrev Byte := BitVec 8

end Sys2Proof
end

