-- ==== Sys2Proof/Config.lean ====
section
/-! DEFINITION. The constants of rule R2 (`00_scope.md` section 4) and the one open parameter of the spec,
`POS_BITS` (R3, decision D11). Nothing here is a free value: R32 says that no step draws one. -/

namespace Sys2Proof.Config

/-- `SYNC`: the required first byte of the stream (R2). -/
def SYNC : Byte := 0xD5

/-- `TERM`: the one-byte trailer of a record without CRC (R2). -/
def TERM : Byte := 0x2A

/-- `BANK_BYTES`: bytes per bank (R2). -/
def bankBytes : Nat := 32

/-- `REGION_BANKS`: banks per region (R2). -/
def regionBanks : Nat := 11

/-- Cells of one region: 11 banks of 32 cells (R24, R25). -/
def regionCells : Nat := regionBanks * bankBytes

/-- `SRAM_LAST`: the last bank address that the resolver classifies as SRAM-like (R2, R110). -/
def sramLast : Nat := 0x0A

/-- `LUT_FIRST`: the bank address stored at local index 0 of the LUT-like region (R2, R25). -/
def lutFirst : Nat := 0x10

/-- `COUNT_ZERO_MEANS`: the payload length that the count byte `0x00` encodes (R2, R75). -/
def countZeroMeans : Nat := 256

/-- `POS_BITS`: the width of an implementation's position register, left open by the spec (R3, D11). It has no
value that Lean can compute; no rule and no step depends on it. -/
opaque posBits : Nat

/-- The streams an implementation with a `POS_BITS`-bit position supports: `N < 2^POS_BITS` (R3, D11). -/
def supportsLength (n : Nat) : Prop := n < 2 ^ posBits

end Sys2Proof.Config
end

