-- ==== Sys2Proof/Syntax.lean ====
section
/-! DEFINITION. The five frame forms of the configuration stream, which the spec treats as its instructions
(`30_encoding.md` R81), one constructor per row of `opcode_table.json`, and the place in the stream that
selects among them. -/

namespace Sys2Proof

/-- Where the decoder is when it reads a frame's first byte: the form is selected by this and, for records, by
bits 6 and 5 of that byte (R81). -/
inductive Context where
  /-- the first frame of the stream (phase `P_SYNC`) -/
  | firstFrame
  /-- any later frame (phase `P_CTRL`) -/
  | laterFrame
  deriving DecidableEq, Repr

/-- A frame with its operands (R71, R72, R87). The `SYNC` byte, the flags `use_crc` and `continue_flag` and the
count byte are implied by the constructor and the payload's length. `x` is bit 7 of the control byte, which has no
effect and is kept (R82, D3). The terminator byte of a record without CRC is an operand, because the block reads
it and compares it (R150). -/
inductive Instr where
  /-- `HDR`: device ID, address field, reserved byte (R120) -/
  | hdr (devid : BitVec 32) (addr rsvd : Byte)
  /-- `REC.TL`: terminator trailer, last record (R132) -/
  | recTL (x : Bool) (off : BitVec 5) (bank : Byte) (payload : List Byte) (term : Byte)
  /-- `REC.TC`: terminator trailer, another record follows (R133) -/
  | recTC (x : Bool) (off : BitVec 5) (bank : Byte) (payload : List Byte) (term : Byte)
  /-- `REC.CL`: CRC trailer, last record (R134) -/
  | recCL (x : Bool) (off : BitVec 5) (bank : Byte) (payload : List Byte) (crc : BitVec 16)
  /-- `REC.CC`: CRC trailer, another record follows (R135) -/
  | recCC (x : Bool) (off : BitVec 5) (bank : Byte) (payload : List Byte) (crc : BitVec 16)
  deriving DecidableEq, Repr

end Sys2Proof
end

