-- ==== Sys2Proof/WellFormed.lean ====
section
/-! DEFINITION. Which frames are well-formed (`30_encoding.md` R70, R75, R83). A wrong `SYNC` byte cannot be
written in the syntax at all; a wrong terminator can, and is ill-formed. -/

namespace Sys2Proof

/-- A count byte can encode this payload: 1 to 256 bytes (R75). -/
def payloadFits (payload : List Byte) : Bool :=
  decide (1 ≤ payload.length) && decide (payload.length ≤ Config.countZeroMeans)

/-- The frame has a byte encoding: its payload fits the count byte (R75). -/
def Instr.encodable : Instr → Bool
  | .hdr _ _ _ => true
  | .recTL _ _ _ payload _ => payloadFits payload
  | .recTC _ _ _ payload _ => payloadFits payload
  | .recCL _ _ _ payload _ => payloadFits payload
  | .recCC _ _ _ payload _ => payloadFits payload

/-- The frame ends in its terminator, where it has one (R77, R83). -/
def Instr.terminated : Instr → Bool
  | .hdr _ _ _ => true
  | .recTL _ _ _ _ term => term == Config.TERM
  | .recTC _ _ _ _ term => term == Config.TERM
  | .recCL _ _ _ _ _ => true
  | .recCC _ _ _ _ _ => true

/-- A well-formed frame (R70): it can be encoded and it is terminated as its form requires. Bank bytes are not
checked here: the address of each payload byte is checked when the byte is written (R83, R111). -/
def Instr.wellFormed (i : Instr) : Bool := i.encodable && i.terminated

end Sys2Proof
end

