-- ==== Sys2Proof/Decode.lean ====
section
/-! DEFINITION. From bytes to frames and back (`30_encoding.md`). `decode` is total: it answers a frame or rejects
by name. `encode` is written from the same tables. -/

namespace Sys2Proof

/-! ### The fields of the control byte (R73) -/

/-- `start_offset = ctrl & 0x1F` (R73). -/
def ctrlOffset (c : Byte) : BitVec 5 := c.extractLsb' 0 5

/-- `use_crc = (ctrl >> 5) & 1` (R73): the trailer is a two-byte CRC. -/
def ctrlUseCrc (c : Byte) : Bool := c.getLsbD 5

/-- `continue_flag = (ctrl >> 6) & 1` (R73): another record follows. Set means continue (conflict C1). -/
def ctrlContinues (c : Byte) : Bool := c.getLsbD 6

/-- Bit 7 of the control byte: not interpreted (R73, R82). -/
def ctrlIgnored (c : Byte) : Bool := c.getLsbD 7

/-- The control byte `(x << 7) | (k << 6) | (c << 5) | off` (R73, R87). -/
def ctrlByte (x k c : Bool) (off : BitVec 5) : Byte :=
  BitVec.ofBool x ++ BitVec.ofBool k ++ BitVec.ofBool c ++ off

/-! ### The count byte (R75) -/

/-- `len = 256` if the count byte is 0, else the count byte (R75). -/
def payloadLength (n : Byte) : Nat := if n = 0 then Config.countZeroMeans else n.toNat

/-- The count byte of a payload of `len` bytes, `1 ≤ len ≤ 256`: 256 is written `00` (R75, R87). -/
def countByte (len : Nat) : Byte := BitVec.ofNat 8 len

/-! ### Multi-byte operands, big-endian (R79) -/

/-- `{b3, b2, b1, b0}`: the first byte read is the most significant (R79). -/
def bigEndian32 (b3 b2 b1 b0 : Byte) : BitVec 32 := b3 ++ b2 ++ b1 ++ b0

/-- `{hi, lo}` (R79). -/
def bigEndian16 (hi lo : Byte) : BitVec 16 := hi ++ lo

/-- Byte `k` of a word, byte 0 least significant. -/
def byteOf {w : Nat} (v : BitVec w) (k : Nat) : Byte := v.extractLsb' (8 * k) 8

/-! ### The decoder -/

/-- Why no frame starts at a place of the stream (R83): the two errors that a frame's first byte can meet. -/
inductive Reject where
  /-- there is no byte left: `UnexpectedEnd` -/
  | unexpectedEnd
  /-- the first byte of the stream is not `SYNC`: `BadSync` -/
  | badSync
  deriving DecidableEq, Repr

/-- Byte `k` of an operand list. DESIGN CHOICE, safe (log entry 3): a byte that the stream does not have reads as
zero here; no effect of a frame uses such a byte, since the cursor raises `UnexpectedEnd` on it first. -/
def fillAt (bs : List Byte) (k : Nat) : Byte := bs.getD k 0

/-- The first `n` bytes, with zeros for those the stream does not have (log entry 3, as `fillAt`). -/
def takeFill : Nat → List Byte → List Byte
  | 0, _ => []
  | n + 1, [] => 0 :: takeFill n []
  | n + 1, b :: bs => b :: takeFill n bs

/-- The header after its `SYNC` byte: four bytes of device ID, the address field, the reserved byte (R71). -/
def decodeHeader (bs : List Byte) : Instr × List Byte :=
  (.hdr (bigEndian32 (fillAt bs 0) (fillAt bs 1) (fillAt bs 2) (fillAt bs 3)) (fillAt bs 4) (fillAt bs 5), bs.drop 6)

/-- A record after its control byte `c`: bank, count, payload, and the trailer that `c` selects (R72, R77, R81). -/
def decodeRecord (c : Byte) (bs : List Byte) : Instr × List Byte :=
  let bank := fillAt bs 0
  let len := payloadLength (fillAt bs 1)
  let payload := takeFill len (bs.drop 2)
  let trailer := bs.drop (2 + len)
  match ctrlUseCrc c, ctrlContinues c with
  | false, false => (.recTL (ctrlIgnored c) (ctrlOffset c) bank payload (fillAt trailer 0), trailer.drop 1)
  | false, true => (.recTC (ctrlIgnored c) (ctrlOffset c) bank payload (fillAt trailer 0), trailer.drop 1)
  | true, false =>
    (.recCL (ctrlIgnored c) (ctrlOffset c) bank payload (bigEndian16 (fillAt trailer 0) (fillAt trailer 1)), trailer.drop 2)
  | true, true =>
    (.recCC (ctrlIgnored c) (ctrlOffset c) bank payload (bigEndian16 (fillAt trailer 0) (fillAt trailer 1)), trailer.drop 2)

/-- The frame at the head of `bs` in its context, with the bytes after it; or why there is none (R81, R83). -/
def decode : Context → List Byte → Except Reject (Instr × List Byte)
  | _, [] => .error .unexpectedEnd
  | .firstFrame, b :: bs => if b = Config.SYNC then .ok (decodeHeader bs) else .error .badSync
  | .laterFrame, c :: bs => .ok (decodeRecord c bs)

/-! ### The encoder -/

/-- Control byte, bank byte, count byte and payload of a record (R72). -/
def encodeRecordHead (c bank : Byte) (payload : List Byte) : List Byte :=
  c :: bank :: countByte payload.length :: payload

/-- The bytes of a frame in stream order (R71, R72, the `encoding` column of `opcode_table.json`). -/
def encode : Instr → List Byte
  | .hdr devid addr rsvd =>
    [Config.SYNC, byteOf devid 3, byteOf devid 2, byteOf devid 1, byteOf devid 0, addr, rsvd]
  | .recTL x off bank payload term => encodeRecordHead (ctrlByte x false false off) bank payload ++ [term]
  | .recTC x off bank payload term => encodeRecordHead (ctrlByte x true false off) bank payload ++ [term]
  | .recCL x off bank payload crc =>
    encodeRecordHead (ctrlByte x false true off) bank payload ++ [byteOf crc 1, byteOf crc 0]
  | .recCC x off bank payload crc =>
    encodeRecordHead (ctrlByte x true true off) bank payload ++ [byteOf crc 1, byteOf crc 0]

/-- The context in which a frame form exists (R81). -/
def frameContext : Instr → Context
  | .hdr _ _ _ => .firstFrame
  | .recTL _ _ _ _ _ => .laterFrame
  | .recTC _ _ _ _ _ => .laterFrame
  | .recCL _ _ _ _ _ => .laterFrame
  | .recCC _ _ _ _ _ => .laterFrame

/-- The length of a frame in bytes (R78). -/
def frameLength : Instr → Nat
  | .hdr _ _ _ => 7
  | .recTL _ _ _ payload _ => 4 + payload.length
  | .recTC _ _ _ payload _ => 4 + payload.length
  | .recCL _ _ _ payload _ => 5 + payload.length
  | .recCC _ _ _ payload _ => 5 + payload.length

/-- The mask of `opcode_table.json` for a frame's first byte (R81). -/
def firstByteMask : Instr → Byte
  | .hdr _ _ _ => 0xFF
  | .recTL _ _ _ _ _ => 0x60
  | .recTC _ _ _ _ _ => 0x60
  | .recCL _ _ _ _ _ => 0x60
  | .recCC _ _ _ _ _ => 0x60

/-- The value of the masked first byte (R81). -/
def firstByteMatch : Instr → Byte
  | .hdr _ _ _ => 0xD5
  | .recTL _ _ _ _ _ => 0x00
  | .recTC _ _ _ _ _ => 0x40
  | .recCL _ _ _ _ _ => 0x20
  | .recCC _ _ _ _ _ => 0x60

/-! ### A record's fields, whichever of the four forms it is -/

/-- What the four record forms share: the control byte as it stands in the stream, the start offset in it, the
bank byte and the payload (R72). -/
structure RecordFields where
  ctrl : Byte
  off : BitVec 5
  bank : Byte
  payload : List Byte
  deriving DecidableEq, Repr

/-- The fields of a record frame; a header has none. -/
def recordFields : Instr → Option RecordFields
  | .hdr _ _ _ => none
  | .recTL x off bank payload _ => some ⟨ctrlByte x false false off, off, bank, payload⟩
  | .recTC x off bank payload _ => some ⟨ctrlByte x true false off, off, bank, payload⟩
  | .recCL x off bank payload _ => some ⟨ctrlByte x false true off, off, bank, payload⟩
  | .recCC x off bank payload _ => some ⟨ctrlByte x true true off, off, bank, payload⟩

/-! ### Words numbered as the opcode table numbers them -/

/-- The first `nbits` bits of `w` as bytes, the first byte the least significant. -/
def wordBytes (nbits w : Nat) : List Byte :=
  (List.range ((nbits + 7) / 8)).map fun k => BitVec.ofNat 8 (w / 2 ^ (8 * k))

/-- The context a table word is read in: a first byte `SYNC` selects the header row (the table gives the context
beside the word, and `HDR` is the one row of the first frame); any other byte a record row (log entry 4). -/
def wordContext (nbits w : Nat) : Context :=
  if (wordBytes nbits w).head? = some Config.SYNC then .firstFrame else .laterFrame

/-- The frame read from the bits `w`, every byte above them zero. -/
def decodeTableWord (nbits w : Nat) : Option Instr :=
  match decode (wordContext nbits w) (wordBytes nbits w) with
  | .ok (i, _) => some i
  | .error _ => none

end Sys2Proof
end

