-- ==== Sys2Proof/Machine/State.lean ====
section
/-! DEFINITION. The state of the block: the tuple of rule R10 (`10_state.md`) and, beside it, the run parameter `S`
(R3, R11), as plain data. -/

namespace Sys2Proof.Machine

/-- `PHASE` (R13): which byte of which frame the next step expects. -/
inductive Phase where
  /-- `P_SYNC`: the SYNC byte -/
  | sync
  /-- `P_ID0`: device ID, most significant byte -/
  | id0
  /-- `P_ID1`: device ID, second byte -/
  | id1
  /-- `P_ID2`: device ID, third byte -/
  | id2
  /-- `P_ID3`: device ID, least significant byte -/
  | id3
  /-- `P_ADDR`: the address field -/
  | addr
  /-- `P_RSVD`: the reserved byte -/
  | rsvd
  /-- `P_CTRL`: a record's control byte -/
  | ctrl
  /-- `P_BANK`: a record's bank address byte -/
  | bank
  /-- `P_COUNT`: a record's count byte -/
  | count
  /-- `P_DATA`: payload byte number `IDX` of the record -/
  | data
  /-- `P_TERM`: the terminator byte -/
  | term
  /-- `P_CRC0`: the first (most significant) CRC byte -/
  | crc0
  /-- `P_CRC1`: the second (least significant) CRC byte -/
  | crc1
  /-- `P_DONE`: the decode is complete -/
  | done
  /-- `P_ERR`: the decode has failed -/
  | err
  /-- `P_OFF`: no run has been started -/
  | off
  deriving DecidableEq, Repr

/-- `ERR` (R14): why the run failed. -/
inductive Err where
  /-- `E_NONE`: no error recorded -/
  | none
  /-- `E_END`, `UnexpectedEnd`: a byte was needed and `POS ≥ N` (R161) -/
  | unexpectedEnd
  /-- `E_SYNC`, `BadSync`: the first byte is not `0xD5` (R162) -/
  | badSync
  /-- `E_TERM`, `BadTerminator`: a non-CRC trailer byte is not `0x2A` (R163) -/
  | badTerminator
  /-- `E_BANK`, `BadBank`: a payload byte resolves to a bank outside both regions (R164) -/
  | badBank
  deriving DecidableEq, Repr

/-- The two regions of the Memory Image (R24, R25). -/
inductive Region where
  /-- the SRAM-like region -/
  | sram
  /-- the LUT-like region -/
  | lut
  deriving DecidableEq, Repr

/-- A location of the image (R42): region, local bank 0..10, byte 0..31. No other location exists, so no write
outside the regions can be formed (R43). -/
structure Loc where
  region : Region
  bank : Fin 11
  byte : Fin 32
  deriving DecidableEq, Repr

/-- What `RESOLVE` answers (R110): the region it classifies, the local bank as an integer, and the byte index. -/
structure Resolved where
  region : Region
  bank : Int
  byte : Fin 32
  deriving DecidableEq, Repr

/-- The written cells of one region, as pairs of a cell number `32 * bank + byte` and the byte last written there,
cell numbers rising. A cell that is not listed was never written: it is `none` (R26). -/
abbrev Memory := List Host.Cell

/-- The canonical form of a region: cell numbers strictly rising, each below 352 (R24, R25). No entry can equal what
an unlisted cell reads as, since an entry holds a byte and an unlisted cell reads `none`. -/
abbrev Memory.wf (m : Memory) : Prop :=
  m.Pairwise (fun a b => a.1 < b.1) ∧ ∀ c ∈ m, c.1 < Config.regionCells

/-- The state. `stream` is the run parameter `S`, its length is `N` (R3); no step writes it (R11, log entry 1).
Everything else is the tuple of R10. -/
@[ext]
structure State where
  /-- `S`, indexed 0..N-1 (R3) -/
  stream : List Byte
  /-- `POS`: the cursor position (R12) -/
  pos : Nat
  /-- `PHASE` (R13) -/
  phase : Phase
  /-- `ERR` (R14) -/
  err : Err
  /-- `DEVID`: the device ID (R16) -/
  devid : Option (BitVec 32)
  /-- `ADDR`: the address field (R17) -/
  addr : Option Byte
  /-- `CTRL`: the control byte of the record being decoded (R18) -/
  ctrl : Option Byte
  /-- `BANK`: its bank address byte (R19) -/
  bank : Option Byte
  /-- `COUNT`: its payload length, 1..256 (R20) -/
  count : Option (BitVec 9)
  /-- `IDX`: payload bytes of it already written (R21) -/
  idx : BitVec 9
  /-- `CRC`: the last CRC trailer received (R22) -/
  crc : Option (BitVec 16)
  /-- `ACC`: the hidden accumulator of a multi-byte read (R23) -/
  acc : BitVec 32
  /-- the SRAM-like region (R24, R26) -/
  sram : Memory
  /-- the LUT-like region (R25, R26) -/
  lut : Memory
  deriving DecidableEq, Repr

/-- Why the model stops at a state no run reaches. -/
inductive Fault where
  /-- A byte step would read a latch that is `none`. Raised by the byte steps of phases `P_DATA`, `P_TERM` and
  `P_CRC1` only (Machine/ByteStep.lean). Safe: the spec says that no rule reads a latch that is `none` (R30, D6), and
  no run reaches such a state (log entry 6). -/
  | latchEmpty
  deriving DecidableEq, Repr

/-- Why the model gives no meaning. -/
inductive Refusal where
  /-- The instruction has no meaning yet. Raised by an arm of `exec` only. Safe. -/
  | notModelled (mnemonic : String)
  /-- A frame form was executed outside the phase it exists in (R81, R120, R140): `HDR` outside `P_SYNC`, a record
  outside `P_CTRL`. Raised by `exec`'s meanings. Safe: `step` never does it (log entry 5). -/
  | outOfContext
  /-- A start event in mid-run (R190, U13: the model has no such move). Raised by `startEvent`. Safe. -/
  | startDuringRun
  deriving DecidableEq, Repr

/-- The state after the start event (R30, R190), with the empty stream: the host supplies `S` (R3; log entry 1). -/
def State.reset : State where
  stream := []
  pos := 0
  phase := .sync
  err := .none
  devid := none
  addr := none
  ctrl := none
  bank := none
  count := none
  idx := 0
  crc := none
  acc := 0
  sram := []
  lut := []

end Sys2Proof.Machine
end

