-- ==== Sys2Proof/Machine/Flags.lean ====
section
/-! DEFINITION. The block has no condition codes (R27). What steers it are two bits of `CTRL`; what the host sees of
its outcome is the read-only view `STATUS` (R15). -/

namespace Sys2Proof.Machine

/-- `NEXT` (R156): another record if the control byte's `CONT` is set, else the decode is complete. -/
def nextPhase (c : Byte) : Phase := if ctrlContinues c then .ctrl else .done

/-- The trailer form that `USE_CRC` selects after the last payload byte (R139). -/
def trailerPhase (c : Byte) : Phase := if ctrlUseCrc c then .crc0 else .term

/-- The number of an error kind (R14, R160). -/
def Err.code : Err → BitVec 3
  | .none => 0
  | .unexpectedEnd => 1
  | .badSync => 2
  | .badTerminator => 3
  | .badBank => 4

/-- The number of a phase (R13); no rule depends on it. -/
def Phase.number : Phase → Nat
  | .sync => 0
  | .id0 => 1
  | .id1 => 2
  | .id2 => 3
  | .id3 => 4
  | .addr => 5
  | .rsvd => 6
  | .ctrl => 7
  | .bank => 8
  | .count => 9
  | .data => 10
  | .term => 11
  | .crc0 => 12
  | .crc1 => 13
  | .done => 14
  | .err => 15
  | .off => 16

/-- A phase in which a step consumes a byte: `P_SYNC` to `P_CRC1` (R13, R15). -/
def Phase.running (p : Phase) : Bool := decide (p.number ≤ 13)

/-- A run is over, or none has been started: no step is enabled (R157). -/
def Phase.terminal (p : Phase) : Bool := !p.running

/-- Where frames begin: the phase gives the decoder its context (R81). -/
def Phase.context : Phase → Option Context
  | .sync => some .firstFrame
  | .ctrl => some .laterFrame
  | .id0 => none
  | .id1 => none
  | .id2 => none
  | .id3 => none
  | .addr => none
  | .rsvd => none
  | .bank => none
  | .count => none
  | .data => none
  | .term => none
  | .crc0 => none
  | .crc1 => none
  | .done => none
  | .err => none
  | .off => none

/-- A running phase inside a frame. -/
def Phase.midFrame (p : Phase) : Bool := p.running && p.context.isNone

/-- The run state shown in `STATUS[1:0]`: 0 OFF, 1 RUNNING, 2 DONE, 3 ERROR (R15). -/
def Phase.outcome (p : Phase) : BitVec 2 :=
  if p.running then 1 else if p = .done then 2 else if p = .err then 3 else 0

/-- `STATUS` (R15): bits 1..0 the run state, bits 4..2 the error number, bits 7..5 zero. -/
def status (s : State) : Byte := (0 : BitVec 3) ++ s.err.code ++ s.phase.outcome

end Sys2Proof.Machine
end

