-- ==== Sys2Proof/Machine/Operands.lean ====
section
/-! DEFINITION. The block's one operand form in memory: the configuration address (bank address, effective offset) and
its translation by the Bank Address Resolver (`41_resolver.md`). -/

namespace Sys2Proof.Machine

/-- The effective offset of payload byte `i`: `START_OFFSET + i`, formed without truncation (R80, R113). -/
def effectiveOffset (off : BitVec 5) (i : Nat) : Nat := off.toNat + i

/-- `RESOLVE(b, o)` (R110). Bank and offset are naturals, so neither the sum nor the carry wraps (R113). -/
def resolve (b o : Nat) : Resolved :=
  if b + o / Config.bankBytes ≤ Config.sramLast then
    ⟨.sram, ((b + o / Config.bankBytes : Nat) : Int), Fin.ofNat 32 o⟩
  else
    ⟨.lut, ((b + o / Config.bankBytes : Nat) : Int) - (Config.lutFirst : Int), Fin.ofNat 32 o⟩

/-- `VALID(region, k)`: `0 ≤ k ≤ 10` (R111); the region plays no part. -/
def valid (_region : Region) (k : Int) : Bool := decide (0 ≤ k) && decide (k ≤ 10)

/-- The image location that `RESOLVE` followed by `VALID` gives, if it is one (R111, R116). -/
def locate (b o : Nat) : Option Loc :=
  let r := resolve b o
  if valid r.region r.bank then some ⟨r.region, Fin.ofNat 11 r.bank.toNat, r.byte⟩ else none

/-- Where payload byte `i` of a record goes, if that is a location (R112): the resolver is applied to every byte
afresh, with the record's unchanged bank. -/
def payloadLoc (bank : Byte) (off : BitVec 5) (i : Nat) : Option Loc := locate bank.toNat (effectiveOffset off i)

end Sys2Proof.Machine
end

