-- ==== Sys2Proof/Machine/Ops.lean ====
section
/-! DEFINITION. The named operations over the state: the image, the cursor, the latches, the entry of an error, and
the procedures that the frame forms share. -/

namespace Sys2Proof.Machine

/-! ### The Memory Image (`20_memory.md`) -/

/-- The content of a cell: `none` if it is not listed (R26). -/
def memRead : Memory → Nat → Option Byte
  | [], _ => none
  | (a, v) :: m, k => if a = k then some v else memRead m k

/-- Sets one cell, keeping the list in rising order. -/
def memWrite : Memory → Nat → Byte → Memory
  | [], k, v => [(k, v)]
  | (a, w) :: m, k, v =>
    if k < a then (k, v) :: (a, w) :: m
    else if k = a then (k, v) :: m
    else (a, w) :: memWrite m k v

/-- The number of a location's cell in its region: row-major, 32 cells a bank (R24, R25). -/
def cellIndex (l : Loc) : Nat := Config.bankBytes * l.bank.val + l.byte.val

/-- `ImgRead(region, k, j)` (R44). -/
def imgRead (s : State) (l : Loc) : Option Byte :=
  match l.region with
  | .sram => memRead s.sram (cellIndex l)
  | .lut => memRead s.lut (cellIndex l)

/-- `ImgWrite(region, k, j, v)` (R43). -/
def imgWrite (l : Loc) (v : Byte) (s : State) : State :=
  match l.region with
  | .sram => { s with sram := memWrite s.sram (cellIndex l) v }
  | .lut => { s with lut := memWrite s.lut (cellIndex l) v }

/-! ### Registers and latches (`10_state.md`) -/

/-- `POS <- POS + 1` (R12): the only assignment of the position. -/
def advance (s : State) : State := { s with pos := s.pos + 1 }

/-- `PHASE <- p` (R13). -/
def setPhase (p : Phase) (s : State) : State := { s with phase := p }

/-- `DEVID <- some(d)` (R16). -/
def latchDevid (d : BitVec 32) (s : State) : State := { s with devid := some d }

/-- `ADDR <- some(a)` (R17). -/
def latchAddr (a : Byte) (s : State) : State := { s with addr := some a }

/-- `CTRL <- some(c)`, all eight bits (R18). -/
def latchCtrl (c : Byte) (s : State) : State := { s with ctrl := some c }

/-- `BANK <- some(b)`, not range-checked (R19). -/
def latchBank (b : Byte) (s : State) : State := { s with bank := some b }

/-- `COUNT <- some(len); IDX <- 0` (R20, R21). -/
def latchCount (len : Nat) (s : State) : State := { s with count := some (BitVec.ofNat 9 len), idx := 0 }

/-- `IDX <- IDX + 1` (R21). -/
def bumpIdx (s : State) : State := { s with idx := s.idx + 1 }

/-- `CRC <- some(c)` (R22). -/
def latchCrc (c : BitVec 16) (s : State) : State := { s with crc := some c }

/-- `ACC <- a` (R23). -/
def setAcc (a : BitVec 32) (s : State) : State := { s with acc := a }

/-! ### Taking an error (`60_exceptions.md`) -/

/-- `raise E` (R165): `ERR <- E; PHASE <- P_ERR`, nothing else changes. There is no return from it (R168): the way
out is a new start event. -/
def raise (e : Err) (s : State) : State := { s with err := e, phase := .err }

/-! ### The Byte Cursor (`40_cursor.md`) -/

/-- What `next()` answers: a byte and the state after it, or the state in which `UnexpectedEnd` has been raised. -/
inductive Fetched where
  | byte (v : Byte) (s : State)
  | exhausted (s : State)
  deriving DecidableEq, Repr

/-- `next()` (R100): the byte at `POS`, the position advanced by one; `UnexpectedEnd` if `POS ≥ N`. -/
def next (s : State) : Fetched :=
  match s.stream[s.pos]? with
  | some v => .byte v (advance s)
  | none => .exhausted (raise .unexpectedEnd s)

/-- One turn of the big-endian fold: `(acc << 8) | v` (R101). -/
def foldByte (acc : BitVec 32) (v : Byte) : BitVec 32 := (acc <<< 8) ||| v.setWidth 32

/-! ### Frame procedures

A frame rule runs from top to bottom and stops where it raises. -/

/-- A frame rule at some point of its run: still going, or stopped by a `raise` (`00_scope.md` section 6). -/
inductive Flow where
  | going (s : State)
  | raised (s : State)
  deriving DecidableEq, Repr

/-- The state of a frame rule. -/
def Flow.state : Flow → State
  | .going s => s
  | .raised s => s

/-- Sequencing: after a `raise` nothing runs. -/
def Flow.andThen (f : Flow) (k : State → Flow) : Flow :=
  match f with
  | .going s => k s
  | .raised s => .raised s

/-- Sequencing with a step that raises nothing. -/
def Flow.thenDo (f : Flow) (k : State → State) : Flow := f.andThen fun s => .going (k s)

/-- `next()` in a frame rule (R100), for a byte whose value the decoder has read: the position advances, or
`UnexpectedEnd` is raised and nothing moves. -/
def consume (s : State) : Flow :=
  if s.pos < s.stream.length then .going (advance s) else .raised (raise .unexpectedEnd s)

/-- `next_n(k)` (R101): folds the bytes big-endian onto `acc` and delivers the value when the last one has been
read; the partial value is kept in `ACC` (R23), as the byte steps keep it (DEDUCED, unsafe for a claim about `ACC` after a
frame: log entry 8). A byte that is missing raises `UnexpectedEnd`, and nothing is delivered. -/
def nextN (deliver : BitVec 32 → State → State) : BitVec 32 → List Byte → State → Flow
  | _, [], s => .going s
  | acc, [v], s => (consume s).thenDo (deliver (foldByte acc v))
  | acc, v :: w :: vs, s =>
    (consume s).andThen fun s => nextN deliver (foldByte acc v) (w :: vs) (setAcc (foldByte acc v) s)

/-- `PREFIX` (R132): control byte, bank byte, count byte. -/
def recordHead (c bank : Byte) (len : Nat) (s : State) : Flow :=
  (((consume s).thenDo (latchCtrl c)).andThen fun s => (consume s).thenDo (latchBank bank)).andThen fun s =>
    (consume s).thenDo (latchCount len)

/-- One turn of `PAYLOAD` after the byte `v` has been read (R131): resolve, check, write, count. `BadBank` leaves
`IDX` and the image as they were. -/
def storePayloadByte (bank : Byte) (off : BitVec 5) (v : Byte) (s : State) : Flow :=
  match payloadLoc bank off s.idx.toNat with
  | some l => .going (bumpIdx (imgWrite l v s))
  | none => .raised (raise .badBank s)

/-- `PAYLOAD` (R131): every byte is read, then resolved and checked, then written (D2). -/
def payloadLoop (bank : Byte) (off : BitVec 5) : List Byte → State → Flow
  | [], s => .going s
  | v :: vs, s => ((consume s).andThen (storePayloadByte bank off v)).andThen (payloadLoop bank off vs)

/-- `TRAILER_TERM` (R150): one byte, required to be `TERM`. -/
def trailerTerm (term : Byte) (s : State) : Flow :=
  (consume s).andThen fun s => if term = Config.TERM then .going s else .raised (raise .badTerminator s)

/-- `TRAILER_CRC` (R151): two bytes, big-endian, into `CRC`; compared with nothing (R152). -/
def trailerCrc (crc : BitVec 16) : State → Flow :=
  nextN (fun a => latchCrc (a.setWidth 16)) 0 [byteOf crc 1, byteOf crc 0]

/-- A frame's outcome: the frame completed, or it took an error; both are next states (R165). -/
def Flow.outcome (f : Flow) : Host.Outcome State Fault Refusal := .next f.state

/-- Runs a frame rule where its form exists (R81), and refuses it elsewhere (log entry 5). -/
def inContext (c : Context) (s : State) (f : State → Flow) : Host.Outcome State Fault Refusal :=
  if s.phase.context = some c then (f s).outcome else .refused .outOfContext

/-! ### Fetching a frame -/

/-- The frame at the cursor, in the context of the phase (R81). -/
def fetchFrame (c : Context) (s : State) : Except Reject (Instr × List Byte) := decode c (s.stream.drop s.pos)

/-- The error that a frame's first byte met (R161, R162): `UnexpectedEnd` moves nothing, `BadSync` has consumed the
byte. -/
def rejectFrame (r : Reject) (s : State) : State :=
  match r with
  | .unexpectedEnd => raise .unexpectedEnd s
  | .badSync => raise .badSync (advance s)

/-- Puts bytes into the stream at the cursor: earlier and later bytes stay; a cursor past the end is reached with zeros. -/
def placeAt (pos : Nat) (bytes stream : List Byte) : List Byte :=
  takeFill pos stream ++ bytes ++ stream.drop (pos + bytes.length)

/-- The phase in which a context's frames are fetched. -/
def contextPhase : Context → Phase
  | .firstFrame => .sync
  | .laterFrame => .ctrl

end Sys2Proof.Machine
end

