-- ==== Sys2Proof/Machine/ByteStep.lean ====
section
/-! DEFINITION. The state machine one byte at a time (`42_header.md` R121–R126, `43_record.md` R136–R139,
`44_trailer.md` R153–R155): what defines every state inside a frame (D21). Each definition below is the action of one
phase on the byte `v` that `next()` has just returned. -/

namespace Sys2Proof.Machine

/-- R121. -/
def onSync (v : Byte) (s : State) : State := if v = Config.SYNC then setPhase .id0 s else raise .badSync s

/-- R122. -/
def onId0 (v : Byte) (s : State) : State := setPhase .id1 (setAcc (v.setWidth 32) s)

/-- R123, from `P_ID1`. -/
def onId1 (v : Byte) (s : State) : State := setPhase .id2 (setAcc (foldByte s.acc v) s)

/-- R123, from `P_ID2`. -/
def onId2 (v : Byte) (s : State) : State := setPhase .id3 (setAcc (foldByte s.acc v) s)

/-- R124. -/
def onId3 (v : Byte) (s : State) : State := setPhase .addr (latchDevid (foldByte s.acc v) s)

/-- R125. -/
def onAddr (v : Byte) (s : State) : State := setPhase .rsvd (latchAddr v s)

/-- R126: the byte is stored nowhere and compared with nothing. -/
def onRsvd (_v : Byte) (s : State) : State := setPhase .ctrl s

/-- R136. -/
def onCtrl (v : Byte) (s : State) : State := setPhase .bank (latchCtrl v s)

/-- R137. -/
def onBank (v : Byte) (s : State) : State := setPhase .count (latchBank v s)

/-- R138. -/
def onCount (v : Byte) (s : State) : State := setPhase .data (latchCount (payloadLength v) s)

/-- R139, on the latched control byte `c`, bank `b` and count `n`. -/
def onData (c b : Byte) (n : BitVec 9) (v : Byte) (s : State) : State :=
  match storePayloadByte b (ctrlOffset c) v s with
  | .going s => if s.idx = n then setPhase (trailerPhase c) s else s
  | .raised s => s

/-- R153, on the latched control byte `c`. -/
def onTerm (c : Byte) (v : Byte) (s : State) : State :=
  if v = Config.TERM then setPhase (nextPhase c) s else raise .badTerminator s

/-- R154. -/
def onCrc0 (v : Byte) (s : State) : State := setPhase .crc1 (setAcc (v.setWidth 32) s)

/-- R155, on the latched control byte `c`. -/
def onCrc1 (c : Byte) (v : Byte) (s : State) : State :=
  setPhase (nextPhase c) (latchCrc ((foldByte s.acc v).setWidth 16) s)

/-- The action of a phase on the byte just read. A step that would read a latch that is `none` stops by name: no run
reaches it (R30, D6; log entry 6). In a terminal phase nothing is read and nothing changes (R157). -/
def onByte (p : Phase) (v : Byte) (s : State) : Host.Outcome State Fault Refusal :=
  match p with
  | .sync => .next (onSync v s)
  | .id0 => .next (onId0 v s)
  | .id1 => .next (onId1 v s)
  | .id2 => .next (onId2 v s)
  | .id3 => .next (onId3 v s)
  | .addr => .next (onAddr v s)
  | .rsvd => .next (onRsvd v s)
  | .ctrl => .next (onCtrl v s)
  | .bank => .next (onBank v s)
  | .count => .next (onCount v s)
  | .data =>
    match s.ctrl, s.bank, s.count with
    | some c, some b, some n => .next (onData c b n v s)
    | _, _, _ => .fault .latchEmpty
  | .term =>
    match s.ctrl with
    | some c => .next (onTerm c v s)
    | none => .fault .latchEmpty
  | .crc0 => .next (onCrc0 v s)
  | .crc1 =>
    match s.ctrl with
    | some c => .next (onCrc1 c v s)
    | none => .fault .latchEmpty
  | .done => .next s
  | .err => .next s
  | .off => .next s

/-- One step of the state machine: in a running phase it consumes one byte or finds the stream exhausted (R100); in a
terminal phase no step is enabled and the state does not change (R157). -/
def byteStep (s : State) : Host.Outcome State Fault Refusal :=
  if s.phase.running then
    match next s with
    | .byte v t => onByte s.phase v t
    | .exhausted t => .next t
  else .next s

/-- `k` byte steps. -/
def byteRun : Nat → State → Host.Outcome State Fault Refusal
  | 0, s => .next s
  | k + 1, s =>
    match byteStep s with
    | .next t => byteRun k t
    | .fault f => .fault f
    | .refused r => .refused r

/-- Byte steps until a frame boundary or a terminal phase is reached (R127, R140), at least one and at most `k + 1`. -/
def byteFrame : Nat → State → Host.Outcome State Fault Refusal
  | 0, s => byteStep s
  | k + 1, s =>
    match byteStep s with
    | .next t => if t.phase.midFrame then byteFrame k t else .next t
    | .fault f => .fault f
    | .refused r => .refused r

end Sys2Proof.Machine
end

