-- ==== Sys2Proof/Machine/Header.lean ====
section
/-! DEFINITION. The header frame `HDR` (`42_header.md`). -/

namespace Sys2Proof.Machine

/-- `HDR` (R120): SYNC, device ID, address field, reserved byte. The SYNC byte has been compared by the decoder: a
first byte other than `SYNC` is no `HDR`, and the step raises `BadSync` for it (R121). -/
def execHdr (devid : BitVec 32) (addr _rsvd : Byte) (s : State) : Host.Outcome State Fault Refusal :=
  inContext .firstFrame s fun s =>
    ((((consume s).andThen
      (nextN latchDevid 0 [byteOf devid 3, byteOf devid 2, byteOf devid 1, byteOf devid 0])).andThen fun s =>
      (consume s).thenDo (latchAddr addr)).andThen
      consume).thenDo (setPhase .ctrl)

end Sys2Proof.Machine
end

