-- ==== Sys2Proof/Machine/Record.lean ====
section
/-! DEFINITION. The four record frames (`43_record.md`): `PREFIX; PAYLOAD;` a trailer; the final phase. -/

namespace Sys2Proof.Machine

/-- `PREFIX; PAYLOAD` of a record (R131, R132). -/
def recordBody (c bank : Byte) (off : BitVec 5) (payload : List Byte) (s : State) : Flow :=
  (recordHead c bank payload.length s).andThen (payloadLoop bank off payload)

/-- `REC.TL` (R132): `PREFIX; PAYLOAD; TRAILER_TERM; PHASE <- P_DONE`. -/
def execRecTL (x : Bool) (off : BitVec 5) (bank : Byte) (payload : List Byte) (term : Byte) (s : State) :
    Host.Outcome State Fault Refusal :=
  inContext .laterFrame s fun s =>
    ((recordBody (ctrlByte x false false off) bank off payload s).andThen (trailerTerm term)).thenDo (setPhase .done)

/-- `REC.TC` (R133): `PREFIX; PAYLOAD; TRAILER_TERM; PHASE <- P_CTRL`. -/
def execRecTC (x : Bool) (off : BitVec 5) (bank : Byte) (payload : List Byte) (term : Byte) (s : State) :
    Host.Outcome State Fault Refusal :=
  inContext .laterFrame s fun s =>
    ((recordBody (ctrlByte x true false off) bank off payload s).andThen (trailerTerm term)).thenDo (setPhase .ctrl)

/-- `REC.CL` (R134): `PREFIX; PAYLOAD; TRAILER_CRC; PHASE <- P_DONE`. -/
def execRecCL (x : Bool) (off : BitVec 5) (bank : Byte) (payload : List Byte) (crc : BitVec 16) (s : State) :
    Host.Outcome State Fault Refusal :=
  inContext .laterFrame s fun s =>
    ((recordBody (ctrlByte x false true off) bank off payload s).andThen (trailerCrc crc)).thenDo (setPhase .done)

/-- `REC.CC` (R135): `PREFIX; PAYLOAD; TRAILER_CRC; PHASE <- P_CTRL`. -/
def execRecCC (x : Bool) (off : BitVec 5) (bank : Byte) (payload : List Byte) (crc : BitVec 16) (s : State) :
    Host.Outcome State Fault Refusal :=
  inContext .laterFrame s fun s =>
    ((recordBody (ctrlByte x true true off) bank off payload s).andThen (trailerCrc crc)).thenDo (setPhase .ctrl)

end Sys2Proof.Machine
end

