-- ==== Sys2Proof/Machine/Dispatch.lean ====
section
/-! DEFINITION. One arm per frame form, each a direct call of its meaning. -/

namespace Sys2Proof.Machine

def exec (i : Instr) (s : State) : Host.Outcome State Fault Refusal :=
  match i with
  | .hdr devid addr rsvd => Sys2Proof.Machine.execHdr devid addr rsvd s
  | .recTL x off bank payload term => Sys2Proof.Machine.execRecTL x off bank payload term s
  | .recTC x off bank payload term => Sys2Proof.Machine.execRecTC x off bank payload term s
  | .recCL x off bank payload crc => Sys2Proof.Machine.execRecCL x off bank payload crc s
  | .recCC x off bank payload crc => Sys2Proof.Machine.execRecCC x off bank payload crc s

end Sys2Proof.Machine
end

