-- ==== Sys2Proof/Machine/Step.lean ====
section
/-! DEFINITION. One step of the machine. At a frame boundary the frame at the cursor is decoded and executed whole
(D21 lets a model take frames as its steps); inside a frame, a state that only byte steps reach, the step is the byte
step; in a terminal phase nothing changes (R157). -/

namespace Sys2Proof.Machine

/-- One step (DESIGN CHOICE, safe: log entry 2). A reject is taken as its error (log entry 14). -/
def step (s : State) : Host.Outcome State Fault Refusal :=
  match s.phase.context with
  | some c =>
    match fetchFrame c s with
    | .ok (i, _) => exec i s
    | .error r => .next (rejectFrame r s)
  | none => byteStep s

/-- `s` with the frame of a table word at the cursor, in the phase its form exists in (log entry 4). -/
def State.withFetchWord (s : State) (nbits w : Nat) : State :=
  match decodeTableWord nbits w with
  | some i =>
    { s with stream := placeAt s.pos (encode i) s.stream, phase := contextPhase (frameContext i) }
  | none => s

end Sys2Proof.Machine
end

