-- ==== Sys2Proof/Machine/HostInterface.lean ====
section
/-! DEFINITION. What the host does to the block and sees of it outside a run (`70_reset_and_hazards.md`). `STATUS` is in
`Machine/Flags.lean`, `ImgRead` in `Machine/Ops.lean`. -/

namespace Sys2Proof.Machine

/-- The state after a start event with the stream `S` (R30, R190). -/
def startState (S : List Byte) : State := { State.reset with stream := S }

/-- The start event (R190): defined when no run is in progress, and then it clears everything (R191). In mid-run the
spec gives it no move (U13). -/
def startEvent (S : List Byte) (s : State) : Host.Outcome State Fault Refusal :=
  if s.phase.terminal then .next (startState S) else .refused .startDuringRun

/-- The Decoded Configuration (R193): device ID, address field and the completed image. -/
structure DecodedConfiguration where
  devid : BitVec 32
  addr : Byte
  sram : Memory
  lut : Memory
  deriving DecidableEq, Repr

/-- What a run has decoded: a configuration only in `P_DONE` (R193, R196); after an error there is none (R170). -/
def decodedConfiguration (s : State) : Option DecodedConfiguration :=
  if s.phase = .done then
    match s.devid, s.addr with
    | some d, some a => some ⟨d, a, s.sram, s.lut⟩
    | _, _ => none
  else none

end Sys2Proof.Machine
end

