-- ==== Sys2Proof/Safety.lean ====
section
/-! DEFINITION. The terms that claims use: the invariant of a run (R31 and the error records of R160), what a run has
read of its stream, and what a record leaves behind. -/

namespace Sys2Proof.Machine

/-- The latches in the order in which a run fills them: a later one is `some` only if the earlier ones are (R31 d),
and a cell is `some` only if a record's prefix has been read (R31 f). -/
structure LatchOrder (s : State) : Prop where
  addr : s.addr.isSome → s.devid.isSome
  ctrl : s.ctrl.isSome → s.addr.isSome
  bank : s.bank.isSome → s.ctrl.isSome
  count : s.count.isSome → s.bank.isSome
  crc : s.crc.isSome → s.count.isSome
  image : s.sram ≠ [] ∨ s.lut ≠ [] → s.count.isSome

/-- Which latches are filled in each phase of a run that has not failed (R31 d). Phases are compared by their number
(R13): 0–6 are the header's, 7 is `P_CTRL`, 8–13 are inside a record, 14 is `P_DONE`. -/
structure LatchesByPhase (s : State) : Prop where
  devidBefore : s.phase.number ≤ 4 → s.devid = none
  devidAfter : 5 ≤ s.phase.number → s.phase.number ≤ 14 → s.devid.isSome
  addrBefore : s.phase.number ≤ 5 → s.addr = none
  addrAfter : 6 ≤ s.phase.number → s.phase.number ≤ 14 → s.addr.isSome
  recordBefore : s.phase.number ≤ 6 → s.ctrl = none
  ctrlAfter : 8 ≤ s.phase.number → s.phase.number ≤ 14 → s.ctrl.isSome
  bankAfter : 9 ≤ s.phase.number → s.phase.number ≤ 14 → s.bank.isSome
  countAfter : 10 ≤ s.phase.number → s.phase.number ≤ 14 → s.count.isSome

/-- Where a record stands: `IDX < COUNT` in the payload, `IDX = COUNT` from the trailer on (R21, R31 e), the trailer
phase is the one `USE_CRC` selects, and a run is done only after a record whose `CONT` is clear (R156). -/
structure RecordProgress (s : State) : Prop where
  countRange : ∀ n, s.count = some n → 1 ≤ n.toNat ∧ n.toNat ≤ 256
  data : s.phase = .data → ∀ n, s.count = some n → s.idx.toNat < n.toNat
  trailer : s.phase = .term ∨ s.phase = .crc0 ∨ s.phase = .crc1 ∨ s.phase = .done → s.count = some s.idx
  term : s.phase = .term → ∀ c, s.ctrl = some c → ctrlUseCrc c = false
  crc : s.phase = .crc0 ∨ s.phase = .crc1 → ∀ c, s.ctrl = some c → ctrlUseCrc c = true
  done : s.phase = .done → ∀ c, s.ctrl = some c → ctrlContinues c = false

/-- The hidden accumulator never overflows (R123, R155). -/
structure AccBounds (s : State) : Prop where
  id1 : s.phase = .id1 → s.acc.toNat < 2 ^ 8
  id2 : s.phase = .id2 → s.acc.toNat < 2 ^ 16
  id3 : s.phase = .id3 → s.acc.toNat < 2 ^ 24
  crc1 : s.phase = .crc1 → s.acc.toNat < 2 ^ 8

/-- What the state records of an error (the table of R160, R161–R164). -/
structure ErrorRecord (s : State) : Prop where
  unexpectedEnd : s.err = .unexpectedEnd → s.pos = s.stream.length
  badSync : s.err = .badSync → s.pos = 1 ∧ s.devid = none
  badTerminator : s.err = .badTerminator →
    ∃ c, s.ctrl = some c ∧ ctrlUseCrc c = false ∧ s.count = some s.idx
  badBank : s.err = .badBank →
    ∃ c b n, s.ctrl = some c ∧ s.bank = some b ∧ s.count = some n ∧ s.idx.toNat < n.toNat ∧
      payloadLoc b (ctrlOffset c) s.idx.toNat = none

/-- The invariant of a run (R31): it holds after every start event and every step keeps it. -/
structure Inv (s : State) : Prop where
  started : s.phase ≠ .off
  posInRange : s.pos ≤ s.stream.length
  headerPos : s.phase.number ≤ 6 → s.pos = s.phase.number
  errIff : s.err ≠ .none ↔ s.phase = .err
  sramWf : Memory.wf s.sram
  lutWf : Memory.wf s.lut
  order : LatchOrder s
  latches : LatchesByPhase s
  progress : RecordProgress s
  accBounds : AccBounds s
  errorRecord : ErrorRecord s

/-- Stream byte `k`, if the stream has one. -/
def streamByte (s : State) (k : Nat) : Option Byte := s.stream[k]?

/-- What a run has kept of the header is what stands in the stream (R16, R17, R71, R79): the SYNC byte once it has been
passed, the device ID of bytes 1 to 4, the address field of byte 5, and on the way to `DEVID` the folded part in
`ACC`. -/
structure HeaderFromStream (s : State) : Prop where
  headerPos : s.phase.number ≤ 6 → s.pos = s.phase.number
  sync : 1 ≤ s.phase.number ∧ s.phase.number ≤ 14 → streamByte s 0 = some Config.SYNC
  id1 : s.phase = .id1 → ∃ b, streamByte s 1 = some b ∧ s.acc.toNat = b.toNat
  id2 : s.phase = .id2 → ∃ b c, streamByte s 1 = some b ∧ streamByte s 2 = some c ∧
    s.acc.toNat = b.toNat * 2 ^ 8 + c.toNat
  id3 : s.phase = .id3 → ∃ b c d, streamByte s 1 = some b ∧ streamByte s 2 = some c ∧ streamByte s 3 = some d ∧
    s.acc.toNat = b.toNat * 2 ^ 16 + c.toNat * 2 ^ 8 + d.toNat
  devid : ∀ v, s.devid = some v → ∃ b c d e, streamByte s 1 = some b ∧ streamByte s 2 = some c ∧
    streamByte s 3 = some d ∧ streamByte s 4 = some e ∧
    v.toNat = b.toNat * 2 ^ 24 + c.toNat * 2 ^ 16 + d.toNat * 2 ^ 8 + e.toNat
  addr : ∀ a, s.addr = some a → streamByte s 5 = some a

/-- After `n` payload bytes of the record `r` the image differs from what it was in exactly the locations of those
bytes, which hold them (R131, R141 b). -/
structure PayloadStored (r : RecordFields) (n : Nat) (s t : State) : Prop where
  written : ∀ i l, i < n → payloadLoc r.bank r.off i = some l → imgRead t l = r.payload[i]?
  others : ∀ l, (∀ i, i < n → payloadLoc r.bank r.off i ≠ some l) → imgRead t l = imgRead s l

/-- What a record has done to the latches and the image once its prefix and `n` payload bytes have been taken
(R131, R132): the header's latches and the stream are as before. -/
structure RecordEffect (r : RecordFields) (n : Nat) (s t : State) : Prop where
  stream : t.stream = s.stream
  devid : t.devid = s.devid
  addr : t.addr = s.addr
  ctrl : t.ctrl = some r.ctrl
  bank : t.bank = some r.bank
  count : t.count = some (BitVec.ofNat 9 r.payload.length)
  idx : t.idx = BitVec.ofNat 9 n
  stored : PayloadStored r n s t

/-- The first `n` payload bytes of a record all have a location (R111). -/
def PayloadValid (r : RecordFields) (n : Nat) : Prop := ∀ i, i < n → (payloadLoc r.bank r.off i).isSome = true

end Sys2Proof.Machine
end

