-- ==== Sys2Proof/Certificates/Slice0/Obligations.lean ====
section
/-! DEFINITION. The statements for the provers. Each docstring names the rule of spec/ it formalises. -/

open Sys2Proof Sys2Proof.Machine

/-! ### Start, cursor, errors, status -/

/-- R30: the state after the start event, for every stream `S` the host supplies. -/
def Obligations.StartStateIsTheResetState : Prop :=
  ∀ S : List Byte,
    (startState S).stream = S ∧ (startState S).pos = 0 ∧ (startState S).phase = .sync ∧ (startState S).err = .none ∧
    (startState S).devid = none ∧ (startState S).addr = none ∧ (startState S).ctrl = none ∧
    (startState S).bank = none ∧ (startState S).count = none ∧ (startState S).crc = none ∧
    (startState S).idx = 0 ∧ (startState S).acc = 0 ∧ ∀ l, imgRead (startState S) l = none

/-- R191: nothing survives a start event: in every state in which one is defined (R190) it gives the same state, which
depends on the new stream alone. -/
def Obligations.StartEventErasesTheLastRun : Prop :=
  ∀ (S : List Byte) (s s' : State),
    (s.phase = .off ∨ s.phase = .done ∨ s.phase = .err) → (s'.phase = .off ∨ s'.phase = .done ∨ s'.phase = .err) →
    startEvent S s = .next (startState S) ∧ startEvent S s = startEvent S s'

/-- R100: `next()` answers the byte at `POS` and moves `POS` by one, or raises `UnexpectedEnd` and moves nothing; a byte
step raises `UnexpectedEnd` exactly when it is attempted in a running phase with no byte left. -/
def Obligations.NextReadsOneByteOrRaises : Prop :=
  ∀ s : State,
    (∀ h : s.pos < s.stream.length, next s = .byte (s.stream[s.pos]) { s with pos := s.pos + 1 }) ∧
    (s.stream.length ≤ s.pos → next s = .exhausted { s with err := .unexpectedEnd, phase := .err }) ∧
    (s.phase.running = true → s.stream.length ≤ s.pos →
      byteStep s = .next { s with err := .unexpectedEnd, phase := .err }) ∧
    (s.err = .none → s.pos < s.stream.length → ∀ t, byteStep s = .next t → t.err ≠ .unexpectedEnd)

/-- R165: `raise E` writes `ERR` and `PHASE` and nothing else, and the rule being executed stops. -/
def Obligations.RaiseWritesErrAndPhaseOnly : Prop :=
  ∀ (e : Err) (s : State),
    (raise e s).err = e ∧ (raise e s).phase = .err ∧ { raise e s with err := s.err, phase := s.phase } = s ∧
    ∀ k : State → Flow, (Flow.raised (raise e s)).andThen k = .raised (raise e s)

/-- R15: the layout of the `STATUS` view, with the numbers of R14. -/
def Obligations.StatusViewLayout : Prop :=
  ∀ s : State,
    (status s).extractLsb' 0 2 =
      (if s.phase = .off then 0#2 else if s.phase = .done then 2#2 else if s.phase = .err then 3#2 else 1#2) ∧
    (s.err = .none → (status s).extractLsb' 2 3 = 0#3) ∧
    (s.err = .unexpectedEnd → (status s).extractLsb' 2 3 = 1#3) ∧
    (s.err = .badSync → (status s).extractLsb' 2 3 = 2#3) ∧
    (s.err = .badTerminator → (status s).extractLsb' 2 3 = 3#3) ∧
    (s.err = .badBank → (status s).extractLsb' 2 3 = 4#3) ∧
    (status s).extractLsb' 5 3 = 0#3

/-- R157: in `P_DONE`, `P_ERR` and `P_OFF` the state does not change, whatever is left of the stream; and only `P_DONE`
counts as success: no other phase shows a Decoded Configuration. That a state in which no step is enabled is answered again
is the model's reading (log entry 2). -/
def Obligations.TerminalPhasesKeepTheState : Prop :=
  ∀ s : State,
    ((s.phase = .done ∨ s.phase = .err ∨ s.phase = .off) → step s = .next s ∧ byteStep s = .next s) ∧
    (s.phase ≠ .done → decodedConfiguration s = none)

/-! ### Fetching and decoding -/

/-- A step runs the frame that the decoder reads at the cursor; in a phase in which no frame begins it is the byte
step (the model's choice of steps, which D21 allows: log entry 2). -/
def Obligations.StepRunsTheDecodedFrame : Prop :=
  (∀ (s : State) (c : Context) (i : Instr) (rest : List Byte),
    s.phase.context = some c → decode c (s.stream.drop s.pos) = .ok (i, rest) → step s = exec i s) ∧
  (∀ s : State, s.phase.context = none → step s = byteStep s)

/-- A step runs the frame whose bytes stand at the cursor, whatever follows them. -/
def Obligations.StepRunsTheEncodedFrame : Prop :=
  ∀ (s : State) (i : Instr) (rest : List Byte),
    i.encodable = true → s.phase.context = some (frameContext i) → s.stream.drop s.pos = encode i ++ rest →
    step s = exec i s

/-- `withFetchWord` places the frame that `decodeTableWord` reads where the very next step runs it (log entry 4). -/
def Obligations.FetchWordIsRunNext : Prop :=
  ∀ (s : State) (nbits w : Nat) (i : Instr),
    decodeTableWord nbits w = some i → step (s.withFetchWord nbits w) = exec i (s.withFetchWord nbits w)

/-- Decoding the encoding of a frame gives the frame, with every operand at every value (R71, R72, R75, R79, R80, R87);
what follows the frame is left over. -/
def Obligations.DecodeOfEncodeIsTheFrame : Prop :=
  ∀ (i : Instr) (rest : List Byte), i.encodable = true → decode (frameContext i) (encode i ++ rest) = .ok (i, rest)

/-- Encoding a decoded frame gives its bytes back, if they were all there: no byte of a frame has a second reading. -/
def Obligations.EncodeOfDecodeIsTheBytes : Prop :=
  ∀ (c : Context) (bs : List Byte) (i : Instr) (rest : List Byte),
    decode c bs = .ok (i, rest) → frameLength i ≤ bs.length →
    encode i ++ rest = bs ∧ i.encodable = true ∧ frameContext i = c

/-- R78: frame lengths: header 7; record 3 + len + 1 or + 2 by bit 5 of its control byte; 5 bytes the shortest record,
261 the longest; 12 bytes the shortest stream. -/
def Obligations.FrameLengthsInBytes : Prop :=
  (∀ (d : BitVec 32) (a r : Byte), (encode (.hdr d a r)).length = 7) ∧
  (∀ (i : Instr) (r : RecordFields), recordFields i = some r →
    (encode i).length = 3 + r.payload.length + (if ctrlUseCrc r.ctrl then 2 else 1)) ∧
  (∀ (i : Instr) (r : RecordFields), recordFields i = some r → i.encodable = true →
    5 ≤ (encode i).length ∧ (encode i).length ≤ 261 ∧
    ∀ (d : BitVec 32) (a v : Byte), 12 ≤ (encode (.hdr d a v) ++ encode i).length) ∧
  (∃ (i : Instr) (r : RecordFields), recordFields i = some r ∧ i.wellFormed = true ∧ (encode i).length = 5 ∧
    ∀ (d : BitVec 32) (a v : Byte), (encode (.hdr d a v) ++ encode i).length = 12) ∧
  (∃ (i : Instr) (r : RecordFields), recordFields i = some r ∧ i.wellFormed = true ∧ (encode i).length = 261)

/-- The opcode map (R81): every first byte of a record decodes to exactly the form that its bits 6 and 5 name; at the
start of the stream exactly the byte `0xD5` decodes, to the header. -/
def Obligations.FirstByteSelectsTheForm : Prop :=
  (∀ (c : Byte) (bs : List Byte), ∃ i rest, decode .laterFrame (c :: bs) = .ok (i, rest) ∧
    frameContext i = .laterFrame ∧ c &&& firstByteMask i = firstByteMatch i ∧
    (c &&& 0x60 = 0x00 → ∃ x off b p t, i = .recTL x off b p t) ∧
    (c &&& 0x60 = 0x20 → ∃ x off b p v, i = .recCL x off b p v) ∧
    (c &&& 0x60 = 0x40 → ∃ x off b p t, i = .recTC x off b p t) ∧
    (c &&& 0x60 = 0x60 → ∃ x off b p v, i = .recCC x off b p v)) ∧
  (∀ (b : Byte) (bs : List Byte),
    (b = 0xD5 → ∃ d a r rest, decode .firstFrame (b :: bs) = .ok (.hdr d a r, rest)) ∧
    (b ≠ 0xD5 → decode .firstFrame (b :: bs) = .error .badSync))

/-- The words of the spec's worked examples (R120, R132–R135) decode to the frames they stand for. -/
def Obligations.WorkedExamplesDecode : Prop :=
  decode .firstFrame [0xD5, 0x12, 0x34, 0x56, 0x78, 0x9A, 0xFF] = .ok (.hdr 0x12345678 0x9A 0xFF, []) ∧
  decode .laterFrame [0x00, 0x00, 0x04, 0xAA, 0xBB, 0xCC, 0xDD, 0x2A] =
    .ok (.recTL false 0 0x00 [0xAA, 0xBB, 0xCC, 0xDD] 0x2A, []) ∧
  decode .laterFrame [0x45, 0x03, 0x03, 0x10, 0x20, 0x30, 0x2A] = .ok (.recTC false 5 0x03 [0x10, 0x20, 0x30] 0x2A, []) ∧
  decode .laterFrame [0x23, 0x10, 0x02, 0xDE, 0xAD, 0xBE, 0xEF] = .ok (.recCL false 3 0x10 [0xDE, 0xAD] 0xBEEF, []) ∧
  decode .laterFrame [0x63, 0x10, 0x02, 0xDE, 0xAD, 0xBE, 0xEF] = .ok (.recCC false 3 0x10 [0xDE, 0xAD] 0xBEEF, [])

/-! ### The header -/

/-- `HDR` completes where its seven bytes are there (R120): the device ID and the address field are latched, the cursor
stands behind the frame, a record is expected; `ACC` keeps the three upper ID bytes (the model's inference from R122 and
R123, log entry 8). -/
def Obligations.HdrCompletes : Prop :=
  ∀ (s : State) (devid : BitVec 32) (addr rsvd : Byte),
    s.phase = .sync → s.pos + 7 ≤ s.stream.length →
    exec (.hdr devid addr rsvd) s =
      .next { s with pos := s.pos + 7, devid := some devid, addr := some addr, acc := devid >>> 8, phase := .ctrl }

/-- R120: everything a step does on a header, by the number of bytes that the stream still has and by its first byte.
`{ t with acc := s.acc }` leaves out the hidden accumulator, as R127 does. -/
def Obligations.HeaderFrameRule : Prop :=
  ∀ s : State, s.phase = .sync →
    let byte (k : Nat) : Byte := s.stream.getD (s.pos + k) 0
    (s.stream.length ≤ s.pos → step s = .next { s with err := .unexpectedEnd, phase := .err }) ∧
    (s.pos < s.stream.length → byte 0 ≠ 0xD5 →
      step s = .next { s with pos := s.pos + 1, err := .badSync, phase := .err }) ∧
    (s.pos < s.stream.length → byte 0 = 0xD5 → s.stream.length < s.pos + 7 →
      ∃ t, step s = .next t ∧
        { t with acc := s.acc } =
          { s with
            pos := s.stream.length, err := .unexpectedEnd, phase := .err,
            devid := if s.pos + 5 ≤ s.stream.length then some (byte 1 ++ byte 2 ++ byte 3 ++ byte 4) else s.devid,
            addr := if s.pos + 6 ≤ s.stream.length then some (byte 5) else s.addr }) ∧
    (byte 0 = 0xD5 → s.pos + 7 ≤ s.stream.length →
      ∃ t, step s = .next t ∧
        { t with acc := s.acc } =
          { s with
            pos := s.pos + 7, devid := some (byte 1 ++ byte 2 ++ byte 3 ++ byte 4), addr := some (byte 5),
            phase := .ctrl })

/-- `HDR` cut short (R101 a, b; R120): `UnexpectedEnd` at the first missing byte, with the position at the end of the
stream; the device ID is latched only if all four of its bytes were there, the address field only if its byte was. -/
def Obligations.HdrCutShort : Prop :=
  ∀ (s : State) (devid : BitVec 32) (addr rsvd : Byte),
    s.phase = .sync → s.pos ≤ s.stream.length → s.stream.length < s.pos + 7 →
    ∃ t, exec (.hdr devid addr rsvd) s = .next t ∧
      { t with acc := s.acc } =
        { s with
          pos := s.stream.length, err := .unexpectedEnd, phase := .err,
          devid := if s.pos + 5 ≤ s.stream.length then some devid else s.devid,
          addr := if s.pos + 6 ≤ s.stream.length then some addr else s.addr }

/-- The frame of `HDR`: whatever it does, completing or failing, no record latch, no image cell and not the stream
changes (R120: "State written"). -/
def Obligations.HdrFrame : Prop :=
  ∀ (s t : State) (devid : BitVec 32) (addr rsvd : Byte), exec (.hdr devid addr rsvd) s = .next t →
    t.stream = s.stream ∧ t.ctrl = s.ctrl ∧ t.bank = s.bank ∧ t.count = s.count ∧ t.idx = s.idx ∧ t.crc = s.crc ∧
    ∀ l, imgRead t l = imgRead s l

/-- R79: multi-byte operands are assembled big-endian: the device ID from stream bytes 1 to 4 of the header, the CRC
value from the two trailer bytes. -/
def Obligations.MultiByteOperandsAreBigEndian : Prop :=
  (∀ (b1 b2 b3 b4 a r : Byte) (rest : List Byte), ∃ t d,
    step (startState (0xD5 :: b1 :: b2 :: b3 :: b4 :: a :: r :: rest)) = .next t ∧ t.devid = some d ∧
    d.toNat = b1.toNat * 2 ^ 24 + b2.toNat * 2 ^ 16 + b3.toNat * 2 ^ 8 + b4.toNat) ∧
  (∀ (s : State) (c hi lo : Byte), s.phase = .crc0 → s.ctrl = some c →
    s.stream[s.pos]? = some hi → s.stream[s.pos + 1]? = some lo →
    ∃ t v, byteRun 2 s = .next t ∧ t.crc = some v ∧ v.toNat = hi.toNat * 2 ^ 8 + lo.toNat)

/-! ### The records -/

/-- `REC.TL` and `REC.TC` complete (R132, R133) where the frame is there, its payload bytes have locations and its
terminator is `0x2A`: the prefix is latched, the payload is in the image, and the decode is complete or another record
is expected. -/
def Obligations.TerminatorRecordsComplete : Prop :=
  ∀ (s : State) (x : Bool) (off : BitVec 5) (bank : Byte) (payload : List Byte),
    s.phase = .ctrl → 1 ≤ payload.length → payload.length ≤ 256 →
    (∀ i, i < payload.length → (payloadLoc bank off i).isSome = true) →
    s.pos + (4 + payload.length) ≤ s.stream.length →
    (∃ t, exec (.recTL x off bank payload 0x2A) s = .next t ∧
      RecordEffect ⟨ctrlByte x false false off, off, bank, payload⟩ payload.length s t ∧
      t.pos = s.pos + (4 + payload.length) ∧ t.phase = .done ∧ t.err = s.err ∧ t.crc = s.crc ∧ t.acc = s.acc) ∧
    (∃ t, exec (.recTC x off bank payload 0x2A) s = .next t ∧
      RecordEffect ⟨ctrlByte x true false off, off, bank, payload⟩ payload.length s t ∧
      t.pos = s.pos + (4 + payload.length) ∧ t.phase = .ctrl ∧ t.err = s.err ∧ t.crc = s.crc ∧ t.acc = s.acc)

/-- `REC.CL` and `REC.CC` complete (R134, R135) where the frame is there and its payload bytes have locations, whatever
the two CRC bytes are (R152): `CRC` holds them big-endian; `ACC` keeps the first of them (the model's inference from R154,
log entry 8). -/
def Obligations.CrcRecordsComplete : Prop :=
  ∀ (s : State) (x : Bool) (off : BitVec 5) (bank : Byte) (payload : List Byte) (crc : BitVec 16),
    s.phase = .ctrl → 1 ≤ payload.length → payload.length ≤ 256 →
    (∀ i, i < payload.length → (payloadLoc bank off i).isSome = true) →
    s.pos + (5 + payload.length) ≤ s.stream.length →
    (∃ t, exec (.recCL x off bank payload crc) s = .next t ∧
      RecordEffect ⟨ctrlByte x false true off, off, bank, payload⟩ payload.length s t ∧
      t.pos = s.pos + (5 + payload.length) ∧ t.phase = .done ∧ t.err = s.err ∧ t.crc = some crc ∧
      t.acc = (crc.extractLsb' 8 8).setWidth 32) ∧
    (∃ t, exec (.recCC x off bank payload crc) s = .next t ∧
      RecordEffect ⟨ctrlByte x true true off, off, bank, payload⟩ payload.length s t ∧
      t.pos = s.pos + (5 + payload.length) ∧ t.phase = .ctrl ∧ t.err = s.err ∧ t.crc = some crc ∧
      t.acc = (crc.extractLsb' 8 8).setWidth 32)

/-- `BadBank` in any record form (R131, R164): the first payload byte without a location has been consumed and not
written, `IDX` is its index, and the bytes before it are in the image. -/
def Obligations.RecordStopsAtABadBank : Prop :=
  ∀ (s : State) (i : Instr) (r : RecordFields) (n : Nat),
    recordFields i = some r → s.phase = .ctrl → r.payload.length ≤ 256 → n < r.payload.length →
    PayloadValid r n → payloadLoc r.bank r.off n = none → s.pos + 3 + n < s.stream.length →
    ∃ t, exec i s = .next t ∧ RecordEffect r n s t ∧ t.pos = s.pos + 3 + n + 1 ∧ t.phase = .err ∧ t.err = .badBank ∧
      t.crc = s.crc ∧ t.acc = s.acc

/-- `BadTerminator` (R150, R163): in `REC.TL` and `REC.TC` a byte other than `0x2A` after the payload has been consumed
and the payload stays written. -/
def Obligations.RecordStopsAtABadTerminator : Prop :=
  ∀ (s : State) (i : Instr) (x : Bool) (off : BitVec 5) (bank : Byte) (payload : List Byte) (term : Byte)
    (r : RecordFields),
    (i = .recTL x off bank payload term ∨ i = .recTC x off bank payload term) → recordFields i = some r →
    s.phase = .ctrl → payload.length ≤ 256 → PayloadValid r payload.length → term ≠ 0x2A →
    s.pos + (4 + payload.length) ≤ s.stream.length →
    ∃ t, exec i s = .next t ∧ RecordEffect r payload.length s t ∧ t.pos = s.pos + (4 + payload.length) ∧
      t.phase = .err ∧ t.err = .badTerminator ∧ t.crc = s.crc ∧ t.acc = s.acc

/-- `UnexpectedEnd` in any record form (R101, R131, R134, R161): where the stream ends inside the frame and no payload
byte that is there lacks a location, the position ends at `N`, each latch is written if its byte was there, the payload
bytes that were there are in the image, and `CRC` keeps its value. -/
def Obligations.RecordCutShort : Prop :=
  ∀ (s : State) (i : Instr) (r : RecordFields),
    recordFields i = some r → s.phase = .ctrl → r.payload.length ≤ 256 → s.pos ≤ s.stream.length →
    s.stream.length < s.pos + frameLength i →
    PayloadValid r (min (s.stream.length - s.pos - 3) r.payload.length) →
    ∃ t, exec i s = .next t ∧ t.pos = s.stream.length ∧ t.phase = .err ∧ t.err = .unexpectedEnd ∧
      t.ctrl = (if s.pos + 1 ≤ s.stream.length then some r.ctrl else s.ctrl) ∧
      t.bank = (if s.pos + 2 ≤ s.stream.length then some r.bank else s.bank) ∧
      t.count = (if s.pos + 3 ≤ s.stream.length then some (BitVec.ofNat 9 r.payload.length) else s.count) ∧
      t.idx = (if s.pos + 3 ≤ s.stream.length then
        BitVec.ofNat 9 (min (s.stream.length - s.pos - 3) r.payload.length) else s.idx) ∧
      PayloadStored r (min (s.stream.length - s.pos - 3) r.payload.length) s t ∧
      t.stream = s.stream ∧ t.devid = s.devid ∧ t.addr = s.addr ∧ t.crc = s.crc

/-- The frame of the record forms: whatever a record does, completing or failing, the header's latches and the stream
are unchanged, a form without CRC leaves `CRC` and `ACC`, and no cell changes but the locations of its payload bytes
(R131–R135: "State written"). -/
def Obligations.RecordFrame : Prop :=
  ∀ (s t : State) (i : Instr) (r : RecordFields), recordFields i = some r → r.payload.length ≤ 256 →
    exec i s = .next t →
    t.stream = s.stream ∧ t.devid = s.devid ∧ t.addr = s.addr ∧
    (ctrlUseCrc r.ctrl = false → t.crc = s.crc ∧ t.acc = s.acc) ∧
    ∀ l, (∀ k, k < r.payload.length → payloadLoc r.bank r.off k ≠ some l) → imgRead t l = imgRead s l

/-- R82: the reserved header byte and bit 7 of a control byte have no effect: the header's outcome does not depend on
the one, and a record's outcome depends on the other in `CTRL[7]` alone. -/
def Obligations.ReservedBitsHaveNoEffect : Prop :=
  (∀ (s : State) (d : BitVec 32) (a r r' : Byte), exec (.hdr d a r) s = exec (.hdr d a r') s) ∧
  (∀ (s : State) (off : BitVec 5) (b : Byte) (p : List Byte) (term : Byte) (crc : BitVec 16) (f : Bool → Instr),
    (f = fun x => .recTL x off b p term) ∨ (f = fun x => .recTC x off b p term) ∨
      (f = fun x => .recCL x off b p crc) ∨ (f = fun x => .recCC x off b p crc) →
    s.phase = .ctrl →
    ∃ t t', exec (f false) s = .next t ∧ exec (f true) s = .next t' ∧
      { t' with ctrl := t.ctrl } = t ∧
      (s.pos < s.stream.length → ∃ c c', t.ctrl = some c ∧ t'.ctrl = some c' ∧
        ctrlIgnored c = false ∧ ctrlIgnored c' = true ∧ c.setWidth 7 = c'.setWidth 7))

/-- R152: the CRC is not validated: every pair of trailer bytes is accepted alike; the outcome depends on the two bytes
in `CRC` (and the hidden `ACC`) alone. -/
def Obligations.CrcValueIsNotChecked : Prop :=
  ∀ (s : State) (x : Bool) (off : BitVec 5) (b : Byte) (p : List Byte) (v v' : BitVec 16), s.phase = .ctrl →
    (∃ t t', exec (.recCL x off b p v) s = .next t ∧ exec (.recCL x off b p v') s = .next t' ∧
      { t' with crc := t.crc, acc := t.acc } = t) ∧
    (∃ t t', exec (.recCC x off b p v) s = .next t ∧ exec (.recCC x off b p v') s = .next t' ∧
      { t' with crc := t.crc, acc := t.acc } = t)

/-- A record is decoded from its own bytes only (R85): once its three prefix bytes are there, what an earlier record
left in `CTRL`, `BANK`, `COUNT` and `IDX` has no effect. -/
def Obligations.RecordsAreIndependent : Prop :=
  ∀ (s : State) (i : Instr) (r : RecordFields) (c b : Option Byte) (n : Option (BitVec 9)) (k : BitVec 9),
    recordFields i = some r → s.phase = .ctrl → s.pos + 3 ≤ s.stream.length →
    exec i { s with ctrl := c, bank := b, count := n, idx := k } = exec i s

/-! ### The model's own stops -/

/-- Where the model stops (its choices, log entries 5, 6 and 7; U13 for the start event): a frame form outside the
phase it exists in, a byte step that would read a latch still `none`, a start event during a run. -/
def Obligations.ModelStopsByName : Prop :=
  (∀ (i : Instr) (s : State), s.phase.context ≠ some (frameContext i) → exec i s = .refused .outOfContext) ∧
  (∀ s : State, s.phase = .data ∨ s.phase = .term ∨ s.phase = .crc1 → s.ctrl = none → s.pos < s.stream.length →
    byteStep s = .fault .latchEmpty) ∧
  (∀ s : State, s.phase = .data → s.bank = none ∨ s.count = none → s.pos < s.stream.length →
    byteStep s = .fault .latchEmpty) ∧
  (∀ (S : List Byte) (s : State), s.phase.running = true → startEvent S s = .refused .startDuringRun)

/-! ### The byte steps -/

/-- R121: the SYNC byte. In a state of a run a wrong one leaves `POS = 1`, the latches `none` and the image empty. -/
def Obligations.ByteStepSync : Prop :=
  ∀ (s : State) (v : Byte), s.phase = .sync → s.stream[s.pos]? = some v →
    (v = 0xD5 → byteStep s = .next { s with pos := s.pos + 1, phase := .id0 }) ∧
    (v ≠ 0xD5 → byteStep s = .next { s with pos := s.pos + 1, err := .badSync, phase := .err } ∧
      (Inv s → s.pos + 1 = 1 ∧ s.devid = none ∧ s.addr = none ∧ s.ctrl = none ∧ s.bank = none ∧ s.count = none ∧
        s.crc = none ∧ ∀ l, imgRead s l = none))

/-- R122, R123: the first three device ID bytes go to `ACC`, which does not overflow; `DEVID` is not written. -/
def Obligations.ByteStepDeviceIdFold : Prop :=
  ∀ (s : State) (v : Byte), s.stream[s.pos]? = some v →
    (s.phase = .id0 → byteStep s = .next { s with pos := s.pos + 1, acc := v.setWidth 32, phase := .id1 }) ∧
    (s.phase = .id1 →
      byteStep s = .next { s with pos := s.pos + 1, acc := (s.acc <<< 8) ||| v.setWidth 32, phase := .id2 } ∧
      (Inv s → ((s.acc <<< 8) ||| v.setWidth 32).toNat < 2 ^ 16)) ∧
    (s.phase = .id2 →
      byteStep s = .next { s with pos := s.pos + 1, acc := (s.acc <<< 8) ||| v.setWidth 32, phase := .id3 } ∧
      (Inv s → ((s.acc <<< 8) ||| v.setWidth 32).toNat < 2 ^ 24))

/-- R124: the fourth device ID byte delivers `DEVID`, dropping nothing, and no other step writes `DEVID`. -/
def Obligations.ByteStepDeviceIdLatch : Prop :=
  (∀ (s : State) (v : Byte), s.phase = .id3 → s.stream[s.pos]? = some v →
    byteStep s =
      .next { s with pos := s.pos + 1, devid := some ((s.acc <<< 8) ||| v.setWidth 32), phase := .addr } ∧
    (Inv s → ((s.acc <<< 8) ||| v.setWidth 32).toNat = s.acc.toNat * 2 ^ 8 + v.toNat)) ∧
  (∀ s t : State, byteStep s = .next t → s.phase ≠ .id3 → t.devid = s.devid)

/-- R125, R126: the address field is latched; the reserved byte is stored nowhere. -/
def Obligations.ByteStepAddressAndReserved : Prop :=
  ∀ (s : State) (v : Byte), s.stream[s.pos]? = some v →
    (s.phase = .addr → byteStep s = .next { s with pos := s.pos + 1, addr := some v, phase := .rsvd }) ∧
    (s.phase = .rsvd → byteStep s = .next { s with pos := s.pos + 1, phase := .ctrl })

/-- R136, R137, R138: control, bank and count byte; no value is refused, and a count byte of 0 means 256. -/
def Obligations.ByteStepRecordPrefix : Prop :=
  ∀ (s : State) (v : Byte), s.stream[s.pos]? = some v →
    (s.phase = .ctrl → byteStep s = .next { s with pos := s.pos + 1, ctrl := some v, phase := .bank }) ∧
    (s.phase = .bank → byteStep s = .next { s with pos := s.pos + 1, bank := some v, phase := .count }) ∧
    (s.phase = .count →
      byteStep s =
        .next { s with
          pos := s.pos + 1, count := some (if v = 0 then 256#9 else v.setWidth 9), idx := 0, phase := .data })

/-- R139, R164: a payload byte: read, resolve, check, write, count; the byte that resolves to no location is consumed
and not written; the last one (the new `IDX` is `COUNT`) leads to the trailer that `CTRL[5]` selects. -/
def Obligations.ByteStepPayload : Prop :=
  ∀ (s : State) (v c b : Byte) (n : BitVec 9),
    s.phase = .data → s.stream[s.pos]? = some v → s.ctrl = some c → s.bank = some b → s.count = some n →
    (locate b.toNat ((c.extractLsb' 0 5).toNat + s.idx.toNat) = none →
      byteStep s = .next { s with pos := s.pos + 1, err := .badBank, phase := .err }) ∧
    (∀ l, locate b.toNat ((c.extractLsb' 0 5).toNat + s.idx.toNat) = some l →
      ∃ t, byteStep s = .next t ∧
        { t with sram := s.sram, lut := s.lut } =
          { s with
            pos := s.pos + 1, idx := s.idx + 1,
            phase := if s.idx + 1 = n then (if c.getLsbD 5 then .crc0 else .term) else .data } ∧
        imgRead t l = some v ∧ ∀ l', l' ≠ l → imgRead t l' = imgRead s l')

/-- R153, R156, R163: the terminator byte: `0x2A` leads on to the next record or to the end by `CTRL[6]`; any other
byte is consumed and raises `BadTerminator`, with `IDX = COUNT` in a state of a run. -/
def Obligations.ByteStepTerminator : Prop :=
  ∀ (s : State) (v c : Byte), s.phase = .term → s.stream[s.pos]? = some v → s.ctrl = some c →
    (v = 0x2A →
      byteStep s = .next { s with pos := s.pos + 1, phase := if c.getLsbD 6 then .ctrl else .done }) ∧
    (v ≠ 0x2A →
      byteStep s = .next { s with pos := s.pos + 1, err := .badTerminator, phase := .err } ∧
      (Inv s → s.count = some s.idx ∧ c.getLsbD 5 = false))

/-- R154, R155, R156: the CRC bytes: the first goes to `ACC`; the second delivers `CRC`, dropping nothing, whatever
the bytes are; no other step writes `CRC`. -/
def Obligations.ByteStepCrc : Prop :=
  (∀ (s : State) (v : Byte), s.phase = .crc0 → s.stream[s.pos]? = some v →
    byteStep s = .next { s with pos := s.pos + 1, acc := v.setWidth 32, phase := .crc1 }) ∧
  (∀ (s : State) (v c : Byte), s.phase = .crc1 → s.stream[s.pos]? = some v → s.ctrl = some c →
    byteStep s =
      .next { s with
        pos := s.pos + 1, crc := some (((s.acc <<< 8) ||| v.setWidth 32).setWidth 16),
        phase := if c.getLsbD 6 then .ctrl else .done } ∧
    (Inv s → (((s.acc <<< 8) ||| v.setWidth 32).setWidth 16).toNat = s.acc.toNat * 2 ^ 8 + v.toNat)) ∧
  (∀ s t : State, byteStep s = .next t → s.phase ≠ .crc1 → t.crc = s.crc)

/-- R156: after the trailer the control byte's bit 6 alone decides between another record and the end; a trailer that is
wrong or cut off ends in its error whatever the bit is; the decode is complete only after a trailer. -/
def Obligations.ContinuationDecidesAfterTheTrailer : Prop :=
  (∀ (s t : State) (c : Byte), s.phase = .term ∨ s.phase = .crc1 → s.ctrl = some c → byteStep s = .next t →
    ((∃ v, s.stream[s.pos]? = some v ∧ (s.phase = .term → v = 0x2A)) → t.phase = if c.getLsbD 6 then .ctrl else .done) ∧
    ((∃ v, s.stream[s.pos]? = some v ∧ s.phase = .term ∧ v ≠ 0x2A) → t.phase = .err ∧ t.err = .badTerminator) ∧
    (s.stream.length ≤ s.pos → t.phase = .err ∧ t.err = .unexpectedEnd)) ∧
  (∀ s t : State, byteStep s = .next t → s.phase ≠ .done → t.phase = .done → s.phase = .term ∨ s.phase = .crc1)

/-- R160 to R164, R168: each error kind is raised in its own phases only; no error is raised over another; a step that
raises none leaves `ERR`. -/
def Obligations.EachErrorHasItsPhase : Prop :=
  ∀ s t : State, byteStep s = .next t →
    (t.err = s.err ∧ (s.phase = .err ∨ t.phase ≠ .err)) ∨
    (t.phase = .err ∧
      ((t.err = .unexpectedEnd ∧ s.phase.running = true ∧ s.stream.length ≤ s.pos) ∨
        (t.err = .badSync ∧ s.phase = .sync ∧ ∃ v, s.stream[s.pos]? = some v ∧ v ≠ 0xD5) ∨
        (t.err = .badTerminator ∧ s.phase = .term ∧ ∃ v, s.stream[s.pos]? = some v ∧ v ≠ 0x2A) ∨
        (t.err = .badBank ∧ s.phase = .data ∧ ∃ c b, s.ctrl = some c ∧ s.bank = some b ∧
          payloadLoc b (ctrlOffset c) s.idx.toNat = none)) ∧
      (Inv s → s.err = .none))

/-! ### The resolver and the image -/

/-- R110 (with R111, R116): what `RESOLVE` and `VALID` answer for every bank address and effective offset, and which
location, if any, a payload byte there has. -/
def Obligations.ResolverClassification : Prop :=
  ∀ b o b' : Nat, b ≤ 255 → o ≤ 286 → b' = b + o / 32 →
    b' ≤ 263 ∧ (resolve b o).byte.val = o % 32 ∧
    (b' ≤ 0x0A → (resolve b o).region = .sram ∧ (resolve b o).bank = b' ∧
      ∃ l, locate b o = some l ∧ l.region = .sram ∧ l.bank.val = b' ∧ l.byte.val = o % 32) ∧
    (0x0A < b' → (resolve b o).region = .lut ∧ (resolve b o).bank = (b' : Int) - 16) ∧
    (0x0B ≤ b' → b' ≤ 0x0F → locate b o = none) ∧
    (0x10 ≤ b' → b' ≤ 0x1A →
      ∃ l, locate b o = some l ∧ l.region = .lut ∧ l.bank.val = b' - 16 ∧ l.byte.val = o % 32) ∧
    (0x1B ≤ b' → locate b o = none) ∧
    (valid (resolve b o).region (resolve b o).bank = true ↔ (b' ≤ 0x0A ∨ (0x10 ≤ b' ∧ b' ≤ 0x1A)))

/-- R115: offset `32q + r` resolves as offset `r` does, `q` banks on. -/
def Obligations.OffsetsCarryIntoBanks : Prop :=
  ∀ b q r : Nat, r ≤ 31 → resolve b (32 * q + r) = resolve (b + q) r

/-- The resolver's widths (R113): the effective offset is at most 286 and the bank sum at most 263, nine bits each;
quotient and remainder by 32 are bits 8..5 and 4..0. -/
def Obligations.ResolverNeedsNineBits : Prop :=
  ∀ (off : BitVec 5) (b : Byte) (i : Nat), i ≤ 255 →
    effectiveOffset off i ≤ 286 ∧ b.toNat + effectiveOffset off i / 32 ≤ 263 ∧
    ((BitVec.ofNat 9 (effectiveOffset off i)).extractLsb' 5 4).toNat = effectiveOffset off i / 32 ∧
    ((BitVec.ofNat 9 (effectiveOffset off i)).extractLsb' 0 5).toNat = effectiveOffset off i % 32

/-- R112, R141 c: the locations of a record's payload bytes are pairwise different, and as long as every byte has one
they lie in one region. -/
def Obligations.PayloadStaysInOneRegion : Prop :=
  ∀ (bank : Byte) (off : BitVec 5) (n : Nat), (∀ i, i < n → (payloadLoc bank off i).isSome = true) →
    ∀ i j l m, i < n → j < n → payloadLoc bank off i = some l → payloadLoc bank off j = some m →
      l.region = m.region ∧ (i ≠ j → l ≠ m)

/-- R31 g, R43, R49: no byte step writes the stream, and only a step in `P_DATA` that has read a byte writes the image.
That step's cell is the one whose address the latches and `IDX` give: if it is a location, the cell there holds the byte
read and every other cell reads as before; if it is none, the image is unchanged. -/
def Obligations.ByteStepWritesAtMostOneCell : Prop :=
  ∀ s t : State, byteStep s = .next t →
    t.stream = s.stream ∧
    (s.phase ≠ .data ∨ s.stream.length ≤ s.pos → t.sram = s.sram ∧ t.lut = s.lut) ∧
    (∀ v, s.phase = .data → streamByte s s.pos = some v →
      ∃ c b, s.ctrl = some c ∧ s.bank = some b ∧
        (payloadLoc b (ctrlOffset c) s.idx.toNat = none → t.sram = s.sram ∧ t.lut = s.lut) ∧
        (∀ l, payloadLoc b (ctrlOffset c) s.idx.toNat = some l →
          imgRead t l = some v ∧ ∀ l', l' ≠ l → imgRead t l' = imgRead s l'))

/-- R51: a cell once written is never unwritten again, by a step of either granularity. -/
def Obligations.WrittenCellsStayWritten : Prop :=
  ∀ s t : State, step s = .next t ∨ byteStep s = .next t → ∀ l, imgRead s l ≠ none → imgRead t l ≠ none

/-- R49: no step of the block reads the image: with other contents it does the same to everything else. -/
def Obligations.ImageIsNeverRead : Prop :=
  ∀ (s t : State) (m m' : Memory), step s = .next t →
    ∃ t', step { s with sram := m, lut := m' } = .next t' ∧ { t' with sram := t.sram, lut := t.lut } = t

/-! ### The two granularities agree -/

/-- R127: from every state in `P_SYNC` the byte steps, run until the phase is `P_CTRL` or `P_ERR`, give exactly the
state that the frame's step gives (in the hidden `ACC` as well: the model's inference, log entry 8). -/
def Obligations.HeaderFrameIsItsByteSteps : Prop :=
  ∀ s : State, s.phase = .sync → byteFrame 6 s = step s

/-- R140: from every state in `P_CTRL` the byte steps, run until the phase is `P_CTRL`, `P_DONE` or `P_ERR`, give exactly
the state that the frame's step gives (in the hidden `ACC` as well: the model's inference, log entry 8). -/
def Obligations.RecordFrameIsItsByteSteps : Prop :=
  ∀ s : State, s.phase = .ctrl → byteFrame 260 s = step s

/-- D21: a whole run ends in the same state whether it is taken frame by frame or byte by byte. The hidden `ACC` is in that
state too, which R127 and R140 except (the model's inference, log entry 8), and runs of one length are compared, which
rests on a terminal state's being answered again (the model's reading, log entry 2). -/
def Obligations.RunsOfBothGranularitiesEndAlike : Prop :=
  ∀ s : State, Inv s → (s.phase = .sync ∨ s.phase = .ctrl) →
    Host.Core.run Sys2Proof.core (s.stream.length - s.pos + 1) s = byteRun (s.stream.length - s.pos + 1) s

/-! ### Invariants -/

/-- The invariant of R31 holds at reset (`State.reset` is the start state of the empty stream: the model's choice, log
entry 1) and after every start event. -/
def Obligations.StartMeetsTheInvariant : Prop :=
  Inv State.reset ∧ ∀ S : List Byte, Inv (startState S) ∧ HeaderFromStream (startState S)

/-- R31: every step keeps the invariant. -/
def Obligations.StepKeepsTheInvariant : Prop :=
  ∀ s t : State, Inv s → step s = .next t → Inv t

/-- R31: every byte step keeps the invariant. -/
def Obligations.ByteStepKeepsTheInvariant : Prop :=
  ∀ s t : State, Inv s → byteStep s = .next t → Inv t

/-- R16, R17, R71: what the header's latches and the accumulator hold is what stands in the stream; every step of either
granularity keeps this. -/
def Obligations.HeaderLatchesMatchTheStream : Prop :=
  ∀ s t : State, HeaderFromStream s → (step s = .next t ∨ byteStep s = .next t) → HeaderFromStream t

/-- R11, R12, R31 b: no step changes the stream, and the position never decreases; a byte step in a running phase moves
it by exactly one, unless the stream is exhausted, and then it enters `P_ERR` with `UnexpectedEnd`. -/
def Obligations.PositionNeverDecreases : Prop :=
  (∀ s t : State, step s = .next t → t.stream = s.stream ∧ s.pos ≤ t.pos) ∧
  (∀ s t : State, byteStep s = .next t → s.phase.running = true →
    (s.pos < s.stream.length ∧ t.pos = s.pos + 1) ∨
    (s.stream.length ≤ s.pos ∧ t.pos = s.pos ∧ t.phase = .err ∧ t.err = .unexpectedEnd))

/-- In a state of a run no step stops: it has a next state, at either granularity. -/
def Obligations.RunsNeverStop : Prop :=
  ∀ s : State, Inv s → (∃ t, step s = .next t) ∧ (∃ t, byteStep s = .next t)

/-- R193, R196: in a state of a run there is a Decoded Configuration exactly in `P_DONE`, made of `DEVID`, `ADDR` and the
image. -/
def Obligations.ConfigurationExactlyWhenDone : Prop :=
  ∀ s : State, Inv s →
    ((s.phase = .done ↔ decodedConfiguration s ≠ none) ∧
      ∀ g, decodedConfiguration s = some g →
        s.devid = some g.devid ∧ s.addr = some g.addr ∧ g.sram = s.sram ∧ g.lut = s.lut)

/-! ### Whole runs -/

/-- R194: every run ends: from every state of a run at most `N − POS + 1` byte steps reach a terminal phase, and not
more than that many steps of frames. Both runs are taken at that full length, which rests on a terminal state's being
answered again (the model's reading, log entry 2). -/
def Obligations.EveryRunEnds : Prop :=
  ∀ s : State, Inv s →
    (∃ t, byteRun (s.stream.length - s.pos + 1) s = .next t ∧ t.phase.terminal = true) ∧
    (∃ t, Host.Core.run Sys2Proof.core (s.stream.length - s.pos + 1) s = .next t ∧ t.phase.terminal = true)

/-- R103: truncating a stream that decodes at any byte before the end of its last record gives `UnexpectedEnd` at that
byte. -/
def Obligations.TruncationGivesUnexpectedEnd : Prop :=
  ∀ (S : List Byte) (k : Nat) (t : State), byteRun k (startState S) = .next t → t.phase = .done →
    ∀ m, m < t.pos → ∃ u, byteRun (m + 1) (startState (S.take m)) = .next u ∧
      u.phase = .err ∧ u.err = .unexpectedEnd ∧ u.pos = m

/-- R89: bytes after the last record are never read: a stream that decodes does so with anything behind it, to the
same state. -/
def Obligations.TrailingBytesAreNotRead : Prop :=
  ∀ (S rest : List Byte) (k : Nat) (t : State), byteRun k (startState S) = .next t → t.phase = .done →
    byteRun k (startState (S ++ rest)) = .next { t with stream := S ++ rest }
end

