-- ==== Sys2Proof/Laws/State.lean ====
section
/-! SUPPORT. What each named update of the state leaves in each field, so that no later proof unfolds a record update. -/

namespace Sys2Proof.Machine

/-! ### `advance` -/

@[simp] theorem advance_stream (s : State) : (advance s).stream = s.stream := rfl
@[simp] theorem advance_pos (s : State) : (advance s).pos = s.pos + 1 := rfl
@[simp] theorem advance_phase (s : State) : (advance s).phase = s.phase := rfl
@[simp] theorem advance_err (s : State) : (advance s).err = s.err := rfl
@[simp] theorem advance_devid (s : State) : (advance s).devid = s.devid := rfl
@[simp] theorem advance_addr (s : State) : (advance s).addr = s.addr := rfl
@[simp] theorem advance_ctrl (s : State) : (advance s).ctrl = s.ctrl := rfl
@[simp] theorem advance_bank (s : State) : (advance s).bank = s.bank := rfl
@[simp] theorem advance_count (s : State) : (advance s).count = s.count := rfl
@[simp] theorem advance_idx (s : State) : (advance s).idx = s.idx := rfl
@[simp] theorem advance_crc (s : State) : (advance s).crc = s.crc := rfl
@[simp] theorem advance_acc (s : State) : (advance s).acc = s.acc := rfl
@[simp] theorem advance_sram (s : State) : (advance s).sram = s.sram := rfl
@[simp] theorem advance_lut (s : State) : (advance s).lut = s.lut := rfl
@[simp] theorem imgRead_advance (s : State) (l : Loc) : imgRead (advance s) l = imgRead s l := rfl

/-! ### `setPhase` -/

@[simp] theorem setPhase_stream (p : Phase) (s : State) : (setPhase p s).stream = s.stream := rfl
@[simp] theorem setPhase_pos (p : Phase) (s : State) : (setPhase p s).pos = s.pos := rfl
@[simp] theorem setPhase_phase (p : Phase) (s : State) : (setPhase p s).phase = p := rfl
@[simp] theorem setPhase_err (p : Phase) (s : State) : (setPhase p s).err = s.err := rfl
@[simp] theorem setPhase_devid (p : Phase) (s : State) : (setPhase p s).devid = s.devid := rfl
@[simp] theorem setPhase_addr (p : Phase) (s : State) : (setPhase p s).addr = s.addr := rfl
@[simp] theorem setPhase_ctrl (p : Phase) (s : State) : (setPhase p s).ctrl = s.ctrl := rfl
@[simp] theorem setPhase_bank (p : Phase) (s : State) : (setPhase p s).bank = s.bank := rfl
@[simp] theorem setPhase_count (p : Phase) (s : State) : (setPhase p s).count = s.count := rfl
@[simp] theorem setPhase_idx (p : Phase) (s : State) : (setPhase p s).idx = s.idx := rfl
@[simp] theorem setPhase_crc (p : Phase) (s : State) : (setPhase p s).crc = s.crc := rfl
@[simp] theorem setPhase_acc (p : Phase) (s : State) : (setPhase p s).acc = s.acc := rfl
@[simp] theorem setPhase_sram (p : Phase) (s : State) : (setPhase p s).sram = s.sram := rfl
@[simp] theorem setPhase_lut (p : Phase) (s : State) : (setPhase p s).lut = s.lut := rfl
@[simp] theorem imgRead_setPhase (p : Phase) (s : State) (l : Loc) : imgRead (setPhase p s) l = imgRead s l := rfl

/-! ### `latchDevid` -/

@[simp] theorem latchDevid_stream (d : BitVec 32) (s : State) : (latchDevid d s).stream = s.stream := rfl
@[simp] theorem latchDevid_pos (d : BitVec 32) (s : State) : (latchDevid d s).pos = s.pos := rfl
@[simp] theorem latchDevid_phase (d : BitVec 32) (s : State) : (latchDevid d s).phase = s.phase := rfl
@[simp] theorem latchDevid_err (d : BitVec 32) (s : State) : (latchDevid d s).err = s.err := rfl
@[simp] theorem latchDevid_devid (d : BitVec 32) (s : State) : (latchDevid d s).devid = some d := rfl
@[simp] theorem latchDevid_addr (d : BitVec 32) (s : State) : (latchDevid d s).addr = s.addr := rfl
@[simp] theorem latchDevid_ctrl (d : BitVec 32) (s : State) : (latchDevid d s).ctrl = s.ctrl := rfl
@[simp] theorem latchDevid_bank (d : BitVec 32) (s : State) : (latchDevid d s).bank = s.bank := rfl
@[simp] theorem latchDevid_count (d : BitVec 32) (s : State) : (latchDevid d s).count = s.count := rfl
@[simp] theorem latchDevid_idx (d : BitVec 32) (s : State) : (latchDevid d s).idx = s.idx := rfl
@[simp] theorem latchDevid_crc (d : BitVec 32) (s : State) : (latchDevid d s).crc = s.crc := rfl
@[simp] theorem latchDevid_acc (d : BitVec 32) (s : State) : (latchDevid d s).acc = s.acc := rfl
@[simp] theorem latchDevid_sram (d : BitVec 32) (s : State) : (latchDevid d s).sram = s.sram := rfl
@[simp] theorem latchDevid_lut (d : BitVec 32) (s : State) : (latchDevid d s).lut = s.lut := rfl
@[simp] theorem imgRead_latchDevid (d : BitVec 32) (s : State) (l : Loc) : imgRead (latchDevid d s) l = imgRead s l := rfl

/-! ### `latchAddr` -/

@[simp] theorem latchAddr_stream (a : Byte) (s : State) : (latchAddr a s).stream = s.stream := rfl
@[simp] theorem latchAddr_pos (a : Byte) (s : State) : (latchAddr a s).pos = s.pos := rfl
@[simp] theorem latchAddr_phase (a : Byte) (s : State) : (latchAddr a s).phase = s.phase := rfl
@[simp] theorem latchAddr_err (a : Byte) (s : State) : (latchAddr a s).err = s.err := rfl
@[simp] theorem latchAddr_devid (a : Byte) (s : State) : (latchAddr a s).devid = s.devid := rfl
@[simp] theorem latchAddr_addr (a : Byte) (s : State) : (latchAddr a s).addr = some a := rfl
@[simp] theorem latchAddr_ctrl (a : Byte) (s : State) : (latchAddr a s).ctrl = s.ctrl := rfl
@[simp] theorem latchAddr_bank (a : Byte) (s : State) : (latchAddr a s).bank = s.bank := rfl
@[simp] theorem latchAddr_count (a : Byte) (s : State) : (latchAddr a s).count = s.count := rfl
@[simp] theorem latchAddr_idx (a : Byte) (s : State) : (latchAddr a s).idx = s.idx := rfl
@[simp] theorem latchAddr_crc (a : Byte) (s : State) : (latchAddr a s).crc = s.crc := rfl
@[simp] theorem latchAddr_acc (a : Byte) (s : State) : (latchAddr a s).acc = s.acc := rfl
@[simp] theorem latchAddr_sram (a : Byte) (s : State) : (latchAddr a s).sram = s.sram := rfl
@[simp] theorem latchAddr_lut (a : Byte) (s : State) : (latchAddr a s).lut = s.lut := rfl
@[simp] theorem imgRead_latchAddr (a : Byte) (s : State) (l : Loc) : imgRead (latchAddr a s) l = imgRead s l := rfl

/-! ### `latchCtrl` -/

@[simp] theorem latchCtrl_stream (c : Byte) (s : State) : (latchCtrl c s).stream = s.stream := rfl
@[simp] theorem latchCtrl_pos (c : Byte) (s : State) : (latchCtrl c s).pos = s.pos := rfl
@[simp] theorem latchCtrl_phase (c : Byte) (s : State) : (latchCtrl c s).phase = s.phase := rfl
@[simp] theorem latchCtrl_err (c : Byte) (s : State) : (latchCtrl c s).err = s.err := rfl
@[simp] theorem latchCtrl_devid (c : Byte) (s : State) : (latchCtrl c s).devid = s.devid := rfl
@[simp] theorem latchCtrl_addr (c : Byte) (s : State) : (latchCtrl c s).addr = s.addr := rfl
@[simp] theorem latchCtrl_ctrl (c : Byte) (s : State) : (latchCtrl c s).ctrl = some c := rfl
@[simp] theorem latchCtrl_bank (c : Byte) (s : State) : (latchCtrl c s).bank = s.bank := rfl
@[simp] theorem latchCtrl_count (c : Byte) (s : State) : (latchCtrl c s).count = s.count := rfl
@[simp] theorem latchCtrl_idx (c : Byte) (s : State) : (latchCtrl c s).idx = s.idx := rfl
@[simp] theorem latchCtrl_crc (c : Byte) (s : State) : (latchCtrl c s).crc = s.crc := rfl
@[simp] theorem latchCtrl_acc (c : Byte) (s : State) : (latchCtrl c s).acc = s.acc := rfl
@[simp] theorem latchCtrl_sram (c : Byte) (s : State) : (latchCtrl c s).sram = s.sram := rfl
@[simp] theorem latchCtrl_lut (c : Byte) (s : State) : (latchCtrl c s).lut = s.lut := rfl
@[simp] theorem imgRead_latchCtrl (c : Byte) (s : State) (l : Loc) : imgRead (latchCtrl c s) l = imgRead s l := rfl

/-! ### `latchBank` -/

@[simp] theorem latchBank_stream (b : Byte) (s : State) : (latchBank b s).stream = s.stream := rfl
@[simp] theorem latchBank_pos (b : Byte) (s : State) : (latchBank b s).pos = s.pos := rfl
@[simp] theorem latchBank_phase (b : Byte) (s : State) : (latchBank b s).phase = s.phase := rfl
@[simp] theorem latchBank_err (b : Byte) (s : State) : (latchBank b s).err = s.err := rfl
@[simp] theorem latchBank_devid (b : Byte) (s : State) : (latchBank b s).devid = s.devid := rfl
@[simp] theorem latchBank_addr (b : Byte) (s : State) : (latchBank b s).addr = s.addr := rfl
@[simp] theorem latchBank_ctrl (b : Byte) (s : State) : (latchBank b s).ctrl = s.ctrl := rfl
@[simp] theorem latchBank_bank (b : Byte) (s : State) : (latchBank b s).bank = some b := rfl
@[simp] theorem latchBank_count (b : Byte) (s : State) : (latchBank b s).count = s.count := rfl
@[simp] theorem latchBank_idx (b : Byte) (s : State) : (latchBank b s).idx = s.idx := rfl
@[simp] theorem latchBank_crc (b : Byte) (s : State) : (latchBank b s).crc = s.crc := rfl
@[simp] theorem latchBank_acc (b : Byte) (s : State) : (latchBank b s).acc = s.acc := rfl
@[simp] theorem latchBank_sram (b : Byte) (s : State) : (latchBank b s).sram = s.sram := rfl
@[simp] theorem latchBank_lut (b : Byte) (s : State) : (latchBank b s).lut = s.lut := rfl
@[simp] theorem imgRead_latchBank (b : Byte) (s : State) (l : Loc) : imgRead (latchBank b s) l = imgRead s l := rfl

/-! ### `latchCount` -/

@[simp] theorem latchCount_stream (n : Nat) (s : State) : (latchCount n s).stream = s.stream := rfl
@[simp] theorem latchCount_pos (n : Nat) (s : State) : (latchCount n s).pos = s.pos := rfl
@[simp] theorem latchCount_phase (n : Nat) (s : State) : (latchCount n s).phase = s.phase := rfl
@[simp] theorem latchCount_err (n : Nat) (s : State) : (latchCount n s).err = s.err := rfl
@[simp] theorem latchCount_devid (n : Nat) (s : State) : (latchCount n s).devid = s.devid := rfl
@[simp] theorem latchCount_addr (n : Nat) (s : State) : (latchCount n s).addr = s.addr := rfl
@[simp] theorem latchCount_ctrl (n : Nat) (s : State) : (latchCount n s).ctrl = s.ctrl := rfl
@[simp] theorem latchCount_bank (n : Nat) (s : State) : (latchCount n s).bank = s.bank := rfl
@[simp] theorem latchCount_count (n : Nat) (s : State) : (latchCount n s).count = some (BitVec.ofNat 9 n) := rfl
@[simp] theorem latchCount_idx (n : Nat) (s : State) : (latchCount n s).idx = 0 := rfl
@[simp] theorem latchCount_crc (n : Nat) (s : State) : (latchCount n s).crc = s.crc := rfl
@[simp] theorem latchCount_acc (n : Nat) (s : State) : (latchCount n s).acc = s.acc := rfl
@[simp] theorem latchCount_sram (n : Nat) (s : State) : (latchCount n s).sram = s.sram := rfl
@[simp] theorem latchCount_lut (n : Nat) (s : State) : (latchCount n s).lut = s.lut := rfl
@[simp] theorem imgRead_latchCount (n : Nat) (s : State) (l : Loc) : imgRead (latchCount n s) l = imgRead s l := rfl

/-! ### `bumpIdx` -/

@[simp] theorem bumpIdx_stream (s : State) : (bumpIdx s).stream = s.stream := rfl
@[simp] theorem bumpIdx_pos (s : State) : (bumpIdx s).pos = s.pos := rfl
@[simp] theorem bumpIdx_phase (s : State) : (bumpIdx s).phase = s.phase := rfl
@[simp] theorem bumpIdx_err (s : State) : (bumpIdx s).err = s.err := rfl
@[simp] theorem bumpIdx_devid (s : State) : (bumpIdx s).devid = s.devid := rfl
@[simp] theorem bumpIdx_addr (s : State) : (bumpIdx s).addr = s.addr := rfl
@[simp] theorem bumpIdx_ctrl (s : State) : (bumpIdx s).ctrl = s.ctrl := rfl
@[simp] theorem bumpIdx_bank (s : State) : (bumpIdx s).bank = s.bank := rfl
@[simp] theorem bumpIdx_count (s : State) : (bumpIdx s).count = s.count := rfl
@[simp] theorem bumpIdx_idx (s : State) : (bumpIdx s).idx = s.idx + 1 := rfl
@[simp] theorem bumpIdx_crc (s : State) : (bumpIdx s).crc = s.crc := rfl
@[simp] theorem bumpIdx_acc (s : State) : (bumpIdx s).acc = s.acc := rfl
@[simp] theorem bumpIdx_sram (s : State) : (bumpIdx s).sram = s.sram := rfl
@[simp] theorem bumpIdx_lut (s : State) : (bumpIdx s).lut = s.lut := rfl
@[simp] theorem imgRead_bumpIdx (s : State) (l : Loc) : imgRead (bumpIdx s) l = imgRead s l := rfl

/-! ### `latchCrc` -/

@[simp] theorem latchCrc_stream (c : BitVec 16) (s : State) : (latchCrc c s).stream = s.stream := rfl
@[simp] theorem latchCrc_pos (c : BitVec 16) (s : State) : (latchCrc c s).pos = s.pos := rfl
@[simp] theorem latchCrc_phase (c : BitVec 16) (s : State) : (latchCrc c s).phase = s.phase := rfl
@[simp] theorem latchCrc_err (c : BitVec 16) (s : State) : (latchCrc c s).err = s.err := rfl
@[simp] theorem latchCrc_devid (c : BitVec 16) (s : State) : (latchCrc c s).devid = s.devid := rfl
@[simp] theorem latchCrc_addr (c : BitVec 16) (s : State) : (latchCrc c s).addr = s.addr := rfl
@[simp] theorem latchCrc_ctrl (c : BitVec 16) (s : State) : (latchCrc c s).ctrl = s.ctrl := rfl
@[simp] theorem latchCrc_bank (c : BitVec 16) (s : State) : (latchCrc c s).bank = s.bank := rfl
@[simp] theorem latchCrc_count (c : BitVec 16) (s : State) : (latchCrc c s).count = s.count := rfl
@[simp] theorem latchCrc_idx (c : BitVec 16) (s : State) : (latchCrc c s).idx = s.idx := rfl
@[simp] theorem latchCrc_crc (c : BitVec 16) (s : State) : (latchCrc c s).crc = some c := rfl
@[simp] theorem latchCrc_acc (c : BitVec 16) (s : State) : (latchCrc c s).acc = s.acc := rfl
@[simp] theorem latchCrc_sram (c : BitVec 16) (s : State) : (latchCrc c s).sram = s.sram := rfl
@[simp] theorem latchCrc_lut (c : BitVec 16) (s : State) : (latchCrc c s).lut = s.lut := rfl
@[simp] theorem imgRead_latchCrc (c : BitVec 16) (s : State) (l : Loc) : imgRead (latchCrc c s) l = imgRead s l := rfl

/-! ### `setAcc` -/

@[simp] theorem setAcc_stream (a : BitVec 32) (s : State) : (setAcc a s).stream = s.stream := rfl
@[simp] theorem setAcc_pos (a : BitVec 32) (s : State) : (setAcc a s).pos = s.pos := rfl
@[simp] theorem setAcc_phase (a : BitVec 32) (s : State) : (setAcc a s).phase = s.phase := rfl
@[simp] theorem setAcc_err (a : BitVec 32) (s : State) : (setAcc a s).err = s.err := rfl
@[simp] theorem setAcc_devid (a : BitVec 32) (s : State) : (setAcc a s).devid = s.devid := rfl
@[simp] theorem setAcc_addr (a : BitVec 32) (s : State) : (setAcc a s).addr = s.addr := rfl
@[simp] theorem setAcc_ctrl (a : BitVec 32) (s : State) : (setAcc a s).ctrl = s.ctrl := rfl
@[simp] theorem setAcc_bank (a : BitVec 32) (s : State) : (setAcc a s).bank = s.bank := rfl
@[simp] theorem setAcc_count (a : BitVec 32) (s : State) : (setAcc a s).count = s.count := rfl
@[simp] theorem setAcc_idx (a : BitVec 32) (s : State) : (setAcc a s).idx = s.idx := rfl
@[simp] theorem setAcc_crc (a : BitVec 32) (s : State) : (setAcc a s).crc = s.crc := rfl
@[simp] theorem setAcc_acc (a : BitVec 32) (s : State) : (setAcc a s).acc = a := rfl
@[simp] theorem setAcc_sram (a : BitVec 32) (s : State) : (setAcc a s).sram = s.sram := rfl
@[simp] theorem setAcc_lut (a : BitVec 32) (s : State) : (setAcc a s).lut = s.lut := rfl
@[simp] theorem imgRead_setAcc (a : BitVec 32) (s : State) (l : Loc) : imgRead (setAcc a s) l = imgRead s l := rfl

/-! ### `raise` -/

@[simp] theorem raise_stream (e : Err) (s : State) : (raise e s).stream = s.stream := rfl
@[simp] theorem raise_pos (e : Err) (s : State) : (raise e s).pos = s.pos := rfl
@[simp] theorem raise_phase (e : Err) (s : State) : (raise e s).phase = .err := rfl
@[simp] theorem raise_err (e : Err) (s : State) : (raise e s).err = e := rfl
@[simp] theorem raise_devid (e : Err) (s : State) : (raise e s).devid = s.devid := rfl
@[simp] theorem raise_addr (e : Err) (s : State) : (raise e s).addr = s.addr := rfl
@[simp] theorem raise_ctrl (e : Err) (s : State) : (raise e s).ctrl = s.ctrl := rfl
@[simp] theorem raise_bank (e : Err) (s : State) : (raise e s).bank = s.bank := rfl
@[simp] theorem raise_count (e : Err) (s : State) : (raise e s).count = s.count := rfl
@[simp] theorem raise_idx (e : Err) (s : State) : (raise e s).idx = s.idx := rfl
@[simp] theorem raise_crc (e : Err) (s : State) : (raise e s).crc = s.crc := rfl
@[simp] theorem raise_acc (e : Err) (s : State) : (raise e s).acc = s.acc := rfl
@[simp] theorem raise_sram (e : Err) (s : State) : (raise e s).sram = s.sram := rfl
@[simp] theorem raise_lut (e : Err) (s : State) : (raise e s).lut = s.lut := rfl
@[simp] theorem imgRead_raise (e : Err) (s : State) (l : Loc) : imgRead (raise e s) l = imgRead s l := rfl

/-! ### `imgWrite`: every register is unchanged; its effect on the image is in Laws/Memory.lean -/

@[simp] theorem imgWrite_stream (l : Loc) (v : Byte) (s : State) : (imgWrite l v s).stream = s.stream := by
  unfold imgWrite; split <;> rfl
@[simp] theorem imgWrite_pos (l : Loc) (v : Byte) (s : State) : (imgWrite l v s).pos = s.pos := by
  unfold imgWrite; split <;> rfl
@[simp] theorem imgWrite_phase (l : Loc) (v : Byte) (s : State) : (imgWrite l v s).phase = s.phase := by
  unfold imgWrite; split <;> rfl
@[simp] theorem imgWrite_err (l : Loc) (v : Byte) (s : State) : (imgWrite l v s).err = s.err := by
  unfold imgWrite; split <;> rfl
@[simp] theorem imgWrite_devid (l : Loc) (v : Byte) (s : State) : (imgWrite l v s).devid = s.devid := by
  unfold imgWrite; split <;> rfl
@[simp] theorem imgWrite_addr (l : Loc) (v : Byte) (s : State) : (imgWrite l v s).addr = s.addr := by
  unfold imgWrite; split <;> rfl
@[simp] theorem imgWrite_ctrl (l : Loc) (v : Byte) (s : State) : (imgWrite l v s).ctrl = s.ctrl := by
  unfold imgWrite; split <;> rfl
@[simp] theorem imgWrite_bank (l : Loc) (v : Byte) (s : State) : (imgWrite l v s).bank = s.bank := by
  unfold imgWrite; split <;> rfl
@[simp] theorem imgWrite_count (l : Loc) (v : Byte) (s : State) : (imgWrite l v s).count = s.count := by
  unfold imgWrite; split <;> rfl
@[simp] theorem imgWrite_idx (l : Loc) (v : Byte) (s : State) : (imgWrite l v s).idx = s.idx := by
  unfold imgWrite; split <;> rfl
@[simp] theorem imgWrite_crc (l : Loc) (v : Byte) (s : State) : (imgWrite l v s).crc = s.crc := by
  unfold imgWrite; split <;> rfl
@[simp] theorem imgWrite_acc (l : Loc) (v : Byte) (s : State) : (imgWrite l v s).acc = s.acc := by
  unfold imgWrite; split <;> rfl

/-! ### `Flow` -/

@[simp] theorem going_andThen (s : State) (k : State → Flow) : (Flow.going s).andThen k = k s := rfl
@[simp] theorem raised_andThen (s : State) (k : State → Flow) : (Flow.raised s).andThen k = .raised s := rfl
@[simp] theorem going_thenDo (s : State) (k : State → State) : (Flow.going s).thenDo k = .going (k s) := rfl
@[simp] theorem raised_thenDo (s : State) (k : State → State) : (Flow.raised s).thenDo k = .raised s := rfl
@[simp] theorem going_state (s : State) : (Flow.going s).state = s := rfl
@[simp] theorem raised_state (s : State) : (Flow.raised s).state = s := rfl

end Sys2Proof.Machine
end

