-- ==== Sys2Proof/Laws/Cursor.lean ====
section
/-! SUPPORT. The cursor: what `next()`, `consume` and `next_n` can do, each said once. -/

namespace Sys2Proof.Machine

theorem next_of_byte {s : State} {v : Byte} (h : s.stream[s.pos]? = some v) : next s = .byte v (advance s) := by
  rw [next, h]

theorem next_of_end {s : State} (h : s.stream.length ≤ s.pos) : next s = .exhausted (raise .unexpectedEnd s) := by
  rw [next, List.getElem?_eq_none h]

/-- `next()` answers in one of two ways (R100). -/
theorem next_cases (s : State) :
    (∃ v, s.stream[s.pos]? = some v ∧ s.pos < s.stream.length ∧ next s = .byte v (advance s)) ∨
    (s.stream.length ≤ s.pos ∧ next s = .exhausted (raise .unexpectedEnd s)) := by
  rcases Nat.lt_or_ge s.pos s.stream.length with h | h
  · exact .inl ⟨_, List.getElem?_eq_getElem h, h, next_of_byte (List.getElem?_eq_getElem h)⟩
  · exact .inr ⟨h, next_of_end h⟩

theorem consume_of_lt {s : State} (h : s.pos < s.stream.length) : consume s = .going (advance s) := if_pos h

theorem consume_of_end {s : State} (h : s.stream.length ≤ s.pos) : consume s = .raised (raise .unexpectedEnd s) :=
  if_neg (Nat.not_lt.2 h)

/-- `consume` moves the cursor exactly when `next()` answers a byte. -/
theorem consume_cases (s : State) :
    (s.pos < s.stream.length ∧ consume s = .going (advance s)) ∨
    (s.stream.length ≤ s.pos ∧ consume s = .raised (raise .unexpectedEnd s)) := by
  rcases Nat.lt_or_ge s.pos s.stream.length with h | h
  · exact .inl ⟨h, consume_of_lt h⟩
  · exact .inr ⟨h, consume_of_end h⟩

/-! ### Byte steps -/

/-- A byte step in a running phase that finds a byte acts on it. -/
theorem byteStep_of_byte {s : State} {v : Byte} (hr : s.phase.running = true) (h : s.stream[s.pos]? = some v) :
    byteStep s = onByte s.phase v (advance s) := by
  rw [byteStep, if_pos hr, next_of_byte h]

/-- A byte step in a running phase that finds the stream exhausted raises `UnexpectedEnd` (R161). -/
theorem byteStep_of_end {s : State} (hr : s.phase.running = true) (h : s.stream.length ≤ s.pos) :
    byteStep s = .next (raise .unexpectedEnd s) := by
  rw [byteStep, if_pos hr, next_of_end h]

/-- In a terminal phase nothing happens (R157). -/
theorem byteStep_of_terminal {s : State} (h : s.phase.running = false) : byteStep s = .next s := by
  rw [byteStep, h]; rfl

/-- Everything a byte step can do. -/
theorem byteStep_cases (s : State) :
    (s.phase.running = false ∧ byteStep s = .next s) ∨
    (s.phase.running = true ∧ s.stream.length ≤ s.pos ∧ byteStep s = .next (raise .unexpectedEnd s)) ∨
    (s.phase.running = true ∧ ∃ v, s.stream[s.pos]? = some v ∧ s.pos < s.stream.length ∧
      byteStep s = onByte s.phase v (advance s)) := by
  cases hr : s.phase.running with
  | false => exact .inl ⟨rfl, byteStep_of_terminal hr⟩
  | true =>
    rcases next_cases s with ⟨v, hv, hlt, -⟩ | ⟨hge, -⟩
    · exact .inr (.inr ⟨rfl, v, hv, hlt, byteStep_of_byte hr hv⟩)
    · exact .inr (.inl ⟨rfl, hge, byteStep_of_end hr hge⟩)

/-! ### `next_n` -/

theorem nextN_one (deliver : BitVec 32 → State → State) (acc : BitVec 32) (v : Byte) (s : State) :
    nextN deliver acc [v] s = (consume s).thenDo (deliver (foldByte acc v)) := rfl

theorem nextN_more (deliver : BitVec 32 → State → State) (acc : BitVec 32) (v w : Byte) (vs : List Byte) (s : State) :
    nextN deliver acc (v :: w :: vs) s =
      (consume s).andThen fun s => nextN deliver (foldByte acc v) (w :: vs) (setAcc (foldByte acc v) s) := rfl

theorem foldByte_zero (v : Byte) : foldByte 0 v = v.setWidth 32 := by
  simp [foldByte]

/-- The fold as a number, while the accumulator leaves room (R101). -/
theorem foldByte_toNat {acc : BitVec 32} {v : Byte} (h : acc.toNat < 2 ^ 24) :
    (foldByte acc v).toNat = acc.toNat * 2 ^ 8 + v.toNat := by
  have hv := v.isLt
  rw [foldByte, BitVec.toNat_or, BitVec.toNat_shiftLeft, BitVec.toNat_setWidth,
    Nat.mod_eq_of_lt (b := 2 ^ 32) (by rw [Nat.shiftLeft_eq]; omega),
    Nat.mod_eq_of_lt (a := v.toNat) (by omega), Nat.shiftLeft_eq, Nat.mul_comm acc.toNat,
    ← Nat.two_pow_add_eq_or_of_lt hv]

/-- Folding the four bytes of a word gives the word (R79). -/
theorem foldByte_word32 (d : BitVec 32) :
    foldByte (foldByte (foldByte (foldByte 0 (byteOf d 3)) (byteOf d 2)) (byteOf d 1)) (byteOf d 0) = d := by
  have h3 : (byteOf d 3).toNat = d.toNat / 2 ^ 24 % 2 ^ 8 := by simp [byteOf, BitVec.extractLsb'_toNat, Nat.shiftRight_eq_div_pow]
  have h2 : (byteOf d 2).toNat = d.toNat / 2 ^ 16 % 2 ^ 8 := by simp [byteOf, BitVec.extractLsb'_toNat, Nat.shiftRight_eq_div_pow]
  have h1 : (byteOf d 1).toNat = d.toNat / 2 ^ 8 % 2 ^ 8 := by simp [byteOf, BitVec.extractLsb'_toNat, Nat.shiftRight_eq_div_pow]
  have h0 : (byteOf d 0).toNat = d.toNat % 2 ^ 8 := by simp [byteOf, BitVec.extractLsb'_toNat]
  have hd := d.isLt
  have e3 := foldByte_toNat (acc := 0) (v := byteOf d 3) (by simp)
  have z : (0 : BitVec 32).toNat = 0 := rfl
  have e2 := foldByte_toNat (acc := foldByte 0 (byteOf d 3)) (v := byteOf d 2) (by omega)
  have e1 := foldByte_toNat (acc := foldByte (foldByte 0 (byteOf d 3)) (byteOf d 2)) (v := byteOf d 1) (by omega)
  apply BitVec.eq_of_toNat_eq
  rw [foldByte_toNat (by omega)]
  omega

/-- Folding the two bytes of a CRC value gives the value (R79). -/
theorem foldByte_word16 (c : BitVec 16) :
    (foldByte (foldByte 0 (byteOf c 1)) (byteOf c 0)).setWidth 16 = c := by
  have h1 : (byteOf c 1).toNat = c.toNat / 2 ^ 8 % 2 ^ 8 := by simp [byteOf, BitVec.extractLsb'_toNat, Nat.shiftRight_eq_div_pow]
  have h0 : (byteOf c 0).toNat = c.toNat % 2 ^ 8 := by simp [byteOf, BitVec.extractLsb'_toNat]
  have hc := c.isLt
  have z : (0 : BitVec 32).toNat = 0 := rfl
  have e1 := foldByte_toNat (acc := 0) (v := byteOf c 1) (by simp)
  apply BitVec.eq_of_toNat_eq
  rw [BitVec.toNat_setWidth, foldByte_toNat (by omega), e1]
  omega

end Sys2Proof.Machine
end

