-- ==== Sys2Proof/Laws/Memory.lean ====
section
/-! SUPPORT. The image: a read after a write, the canonical form of a region, and the resolver's locations. -/

namespace Sys2Proof.Machine

theorem memRead_memWrite_same (m : Memory) (k : Nat) (v : Byte) : memRead (memWrite m k v) k = some v := by
  induction m with
  | nil => simp [memWrite, memRead]
  | cons c m ih =>
    obtain ⟨a, w⟩ := c
    by_cases h1 : k < a
    · simp [memWrite, memRead, h1]
    · by_cases h2 : k = a
      · simp [memWrite, memRead, h2]
      · simp [memWrite, memRead, h1, h2, Ne.symm h2, ih]

theorem memRead_memWrite_other (m : Memory) {k k' : Nat} (v : Byte) (h : k' ≠ k) :
    memRead (memWrite m k v) k' = memRead m k' := by
  induction m with
  | nil => simp [memWrite, memRead, h.symm]
  | cons c m ih =>
    obtain ⟨a, w⟩ := c
    by_cases h1 : k < a
    · simp [memWrite, memRead, h1, h.symm]
    · by_cases h2 : k = a
      · subst h2; simp [memWrite, memRead, h.symm]
      · simp [memWrite, memRead, h1, h2, ih]

/-- The entries of a written region are old entries or the new one. -/
theorem mem_of_mem_memWrite {m : Memory} {k : Nat} {v : Byte} {c : Host.Cell} (h : c ∈ memWrite m k v) :
    c = (k, v) ∨ c ∈ m := by
  induction m with
  | nil => simpa [memWrite] using h
  | cons d m ih =>
    obtain ⟨a, w⟩ := d
    unfold memWrite at h
    split at h
    · simpa using h
    · split at h
      · rcases List.mem_cons.1 h with h | h
        · exact .inl h
        · exact .inr (List.mem_cons_of_mem _ h)
      · rcases List.mem_cons.1 h with h | h
        · exact .inr (h ▸ List.mem_cons_self)
        · exact (ih h).imp id (List.mem_cons_of_mem _)

/-- A write inside the region keeps the canonical form. -/
theorem memWrite_wf {m : Memory} (hm : Memory.wf m) {k : Nat} (hk : k < Config.regionCells) (v : Byte) :
    Memory.wf (memWrite m k v) := by
  refine ⟨?_, fun c hc => ?_⟩
  · obtain ⟨hp, -⟩ := hm
    induction m with
    | nil => simp [memWrite]
    | cons c m ih =>
      obtain ⟨a, w⟩ := c
      obtain ⟨hhead, htail⟩ := List.pairwise_cons.1 hp
      unfold memWrite
      split
      · rename_i hlt
        refine List.pairwise_cons.2 ⟨fun d hd => ?_, hp⟩
        rcases List.mem_cons.1 hd with rfl | hd
        · exact hlt
        · exact lt_trans hlt (hhead d hd)
      · split
        · rename_i heq
          exact List.pairwise_cons.2 ⟨fun d hd => heq ▸ hhead d hd, htail⟩
        · refine List.pairwise_cons.2 ⟨fun d hd => ?_, ih htail⟩
          rcases mem_of_mem_memWrite hd with rfl | hd
          · show a < k
            omega
          · exact hhead d hd
  · rcases mem_of_mem_memWrite hc with rfl | hc
    · exact hk
    · exact hm.2 c hc

/-- A cell number below every entry of a region is not listed. -/
theorem memRead_of_below {m : Memory} {k : Nat} (h : ∀ c ∈ m, k < c.1) : memRead m k = none := by
  induction m with
  | nil => rfl
  | cons c m ih =>
    have hk : k < c.1 := h c List.mem_cons_self
    rw [memRead, if_neg (by omega), ih fun d hd => h d (List.mem_cons_of_mem _ hd)]

/-- Canonical regions that read alike everywhere are the same list. -/
theorem Memory.wf_ext {m m' : Memory} (h : Memory.wf m) (h' : Memory.wf m')
    (heq : ∀ k, memRead m k = memRead m' k) : m = m' := by
  obtain ⟨hp, -⟩ := h
  obtain ⟨hp', -⟩ := h'
  induction m generalizing m' with
  | nil =>
    cases m' with
    | nil => rfl
    | cons c m' => have := heq c.1; simp [memRead] at this
  | cons c m ih =>
    cases m' with
    | nil => have := heq c.1; simp [memRead] at this
    | cons c' m' =>
      obtain ⟨a, v⟩ := c
      obtain ⟨a', v'⟩ := c'
      obtain ⟨hh, ht⟩ := List.pairwise_cons.1 hp
      obtain ⟨hh', ht'⟩ := List.pairwise_cons.1 hp'
      have hk : a = a' := by
        rcases lt_trichotomy a a' with hlt | rfl | hlt
        · have := heq a
          rw [memRead_of_below (m := (a', v') :: m') (by
            intro d hd
            rcases List.mem_cons.1 hd with rfl | hd
            · exact hlt
            · exact lt_trans hlt (hh' d hd))] at this
          simp [memRead] at this
        · rfl
        · have := heq a'
          rw [memRead_of_below (m := (a, v) :: m) (by
            intro d hd
            rcases List.mem_cons.1 hd with rfl | hd
            · exact hlt
            · exact lt_trans hlt (hh d hd))] at this
          simp [memRead] at this
      subst hk
      have hv : v = v' := by simpa [memRead] using heq a
      subst hv
      congr 1
      refine ih (fun k => ?_) ht ht'
      by_cases hka : a = k
      · subst hka
        rw [memRead_of_below hh, memRead_of_below hh']
      · simpa [memRead, hka] using heq k

/-! ### Locations -/

theorem cellIndex_lt (l : Loc) : cellIndex l < Config.regionCells := by
  have := l.bank.isLt; have := l.byte.isLt
  simp only [cellIndex, Config.regionCells, Config.bankBytes, Config.regionBanks]; omega

theorem loc_eq_of_cellIndex_eq {l l' : Loc} (hr : l.region = l'.region) (h : cellIndex l = cellIndex l') : l = l' := by
  obtain ⟨r, k, j⟩ := l
  obtain ⟨r', k', j'⟩ := l'
  simp only [cellIndex, Config.bankBytes] at h
  have := j.isLt; have := j'.isLt
  simp only [Loc.mk.injEq]
  exact ⟨hr, Fin.ext (by omega), Fin.ext (by omega)⟩

@[simp] theorem imgRead_imgWrite_same (l : Loc) (v : Byte) (s : State) : imgRead (imgWrite l v s) l = some v := by
  obtain ⟨r, k, j⟩ := l
  cases r <;> exact memRead_memWrite_same _ _ _

theorem imgRead_imgWrite_other {l l' : Loc} (v : Byte) (s : State) (h : l' ≠ l) :
    imgRead (imgWrite l v s) l' = imgRead s l' := by
  obtain ⟨r, k, j⟩ := l
  obtain ⟨r', k', j'⟩ := l'
  cases r <;> cases r' <;> first
    | rfl
    | exact memRead_memWrite_other _ _ fun he => h (loc_eq_of_cellIndex_eq rfl he)

/-- Both regions are canonical. -/
abbrev ImageWf (s : State) : Prop := Memory.wf s.sram ∧ Memory.wf s.lut

theorem imgWrite_wf {s : State} (h : ImageWf s) (l : Loc) (v : Byte) : ImageWf (imgWrite l v s) := by
  unfold imgWrite
  split
  · exact ⟨memWrite_wf h.1 (cellIndex_lt l) v, h.2⟩
  · exact ⟨h.1, memWrite_wf h.2 (cellIndex_lt l) v⟩

theorem reset_image_wf : ImageWf State.reset := by decide

/-! ### The resolver -/

theorem resolve_sram {b o : Nat} (h : b + o / 32 ≤ 10) :
    resolve b o = ⟨.sram, ((b + o / 32 : Nat) : Int), Fin.ofNat 32 o⟩ := if_pos h

theorem resolve_lut {b o : Nat} (h : ¬ b + o / 32 ≤ 10) :
    resolve b o = ⟨.lut, ((b + o / 32 : Nat) : Int) - 16, Fin.ofNat 32 o⟩ := if_neg h

/-- `RESOLVE` and `VALID` in terms of `b' = b + o / 32` (R111, R116). -/
theorem locate_eq (b o : Nat) :
    locate b o =
      if b + o / 32 ≤ 10 then some ⟨.sram, Fin.ofNat 11 (b + o / 32), Fin.ofNat 32 o⟩
      else if 16 ≤ b + o / 32 ∧ b + o / 32 ≤ 26 then
        some ⟨.lut, Fin.ofNat 11 (b + o / 32 - 16), Fin.ofNat 32 o⟩
      else none := by
  by_cases h : b + o / 32 ≤ 10
  · have hv : valid .sram ((b + o / 32 : Nat) : Int) = true := by
      simp only [valid, Bool.and_eq_true, decide_eq_true_eq]; omega
    simp only [locate, resolve_sram h, if_pos h, if_pos hv, Int.toNat_natCast]
  · by_cases h' : 16 ≤ b + o / 32 ∧ b + o / 32 ≤ 26
    · have hv : valid .lut (((b + o / 32 : Nat) : Int) - 16) = true := by
        simp only [valid, Bool.and_eq_true, decide_eq_true_eq]; omega
      have hk : (((b + o / 32 : Nat) : Int) - 16).toNat = b + o / 32 - 16 := by omega
      simp only [locate, resolve_lut h, if_neg h, if_pos h', if_pos hv, hk]
    · have hv : ¬ valid .lut (((b + o / 32 : Nat) : Int) - 16) = true := by
        simp only [valid, Bool.and_eq_true, decide_eq_true_eq]; omega
      simp only [locate, resolve_lut h, if_neg h, if_neg h', if_neg hv]

/-- Where a location is: its region says in which of the two ranges `b + o / 32` lies (R116). -/
theorem locate_some {b o : Nat} {l : Loc} (h : locate b o = some l) :
    (l.region = .sram ∧ b + o / 32 ≤ 10) ∨ (l.region = .lut ∧ 16 ≤ b + o / 32 ∧ b + o / 32 ≤ 26) := by
  rw [locate_eq] at h
  split at h
  · rename_i h1; cases h; exact .inl ⟨rfl, h1⟩
  · split at h
    · rename_i h2; cases h; exact .inr ⟨rfl, h2⟩
    · cases h

end Sys2Proof.Machine
end

