-- ==== Sys2Proof/Laws/Record.lean ====
section
/-! SUPPORT. The shared procedures of a record: everything each can do, said once, so that the meanings of the four
forms are read off them. -/

namespace Sys2Proof.Machine

/-! ### Locations of a payload -/

/-- Different payload bytes of a record have different locations (R141 c). -/
theorem payloadLoc_injective {bank : Byte} {off : BitVec 5} {i j : Nat} {l : Loc}
    (hi : payloadLoc bank off i = some l) (hj : payloadLoc bank off j = some l) : i = j := by
  simp only [payloadLoc, locate_eq, effectiveOffset] at hi hj
  have key : ∀ {o : Nat}, (if bank.toNat + o / 32 ≤ 10 then
        some (Loc.mk .sram (Fin.ofNat 11 (bank.toNat + o / 32)) (Fin.ofNat 32 o))
      else if 16 ≤ bank.toNat + o / 32 ∧ bank.toNat + o / 32 ≤ 26 then
        some (Loc.mk .lut (Fin.ofNat 11 (bank.toNat + o / 32 - 16)) (Fin.ofNat 32 o)) else none) = some l →
      32 * bank.toNat + o = 32 * (l.bank.val + if l.region = .sram then 0 else 16) + l.byte.val := by
    intro o h
    split at h
    · obtain rfl := Option.some.inj h
      simp only [Fin.ofNat, if_true]; omega
    · split at h
      · obtain rfl := Option.some.inj h
        simp only [Fin.ofNat, reduceCtorEq, if_false]; omega
      · cases h
  have := key hi
  have := key hj
  omega

/-! ### `PAYLOAD` -/

/-- The state after `PAYLOAD` has stored all of `vs` from `s` (R131): the position and the index have moved by their
number, the image holds them, nothing else has changed. -/
structure Stored (bank : Byte) (off : BitVec 5) (vs : List Byte) (s t : State) : Prop where
  rest : t = { s with pos := s.pos + vs.length, idx := s.idx + BitVec.ofNat 9 vs.length, sram := t.sram, lut := t.lut }
  written : ∀ i l, i < vs.length → payloadLoc bank off (s.idx.toNat + i) = some l → imgRead t l = vs[i]?
  others : ∀ l, (∀ i, i < vs.length → payloadLoc bank off (s.idx.toNat + i) ≠ some l) → imgRead t l = imgRead s l

theorem payloadLoop_nil (bank : Byte) (off : BitVec 5) (s : State) : payloadLoop bank off [] s = .going s := rfl

theorem payloadLoop_cons (bank : Byte) (off : BitVec 5) (v : Byte) (vs : List Byte) (s : State) :
    payloadLoop bank off (v :: vs) s =
      ((consume s).andThen (storePayloadByte bank off v)).andThen (payloadLoop bank off vs) := rfl

theorem andThen_assoc (f : Flow) (k k' : State → Flow) :
    (f.andThen k).andThen k' = f.andThen fun s => (k s).andThen k' := by cases f <;> rfl

/-- A payload can be stored in two parts. -/
theorem payloadLoop_append (bank : Byte) (off : BitVec 5) (vs ws : List Byte) (s : State) :
    payloadLoop bank off (vs ++ ws) s = (payloadLoop bank off vs s).andThen (payloadLoop bank off ws) := by
  induction vs generalizing s with
  | nil => rfl
  | cons v vs ih =>
    rw [List.cons_append, payloadLoop_cons, payloadLoop_cons, andThen_assoc _ _ (payloadLoop bank off ws)]
    congr 1
    exact funext ih

theorem storePayloadByte_of_some {bank : Byte} {off : BitVec 5} {v : Byte} {s : State} {l : Loc}
    (h : payloadLoc bank off s.idx.toNat = some l) :
    storePayloadByte bank off v s = .going (bumpIdx (imgWrite l v s)) := by rw [storePayloadByte, h]

theorem storePayloadByte_of_none {bank : Byte} {off : BitVec 5} {v : Byte} {s : State}
    (h : payloadLoc bank off s.idx.toNat = none) :
    storePayloadByte bank off v s = .raised (raise .badBank s) := by rw [storePayloadByte, h]

theorem imgWrite_rest (l : Loc) (v : Byte) (s : State) :
    imgWrite l v s = { s with sram := (imgWrite l v s).sram, lut := (imgWrite l v s).lut } := by
  unfold imgWrite; split <;> rfl

/-- Where all bytes are there and all locations valid, `PAYLOAD` stores them (R131). -/
theorem payloadLoop_stored {bank : Byte} {off : BitVec 5} {vs : List Byte} {s : State}
    (hidx : s.idx.toNat + vs.length ≤ 256) (hpos : s.pos + vs.length ≤ s.stream.length)
    (hval : ∀ i, i < vs.length → (payloadLoc bank off (s.idx.toNat + i)).isSome = true) :
    ∃ t, payloadLoop bank off vs s = .going t ∧ Stored bank off vs s t := by
  induction vs generalizing s with
  | nil =>
    exact ⟨s, rfl, by simp, by simp, by simp⟩
  | cons v vs ih =>
    simp only [List.length_cons] at hidx hpos hval
    obtain ⟨l, hl⟩ := Option.isSome_iff_exists.1 (hval 0 (by omega))
    rw [Nat.add_zero] at hl
    set s1 := bumpIdx (imgWrite l v (advance s)) with hs1
    have hi1 : s1.idx = s.idx + 1 := by simp [hs1]
    have hn1 : s1.idx.toNat = s.idx.toNat + 1 := by
      rw [hi1, BitVec.toNat_add]; simp; omega
    have hp1 : s1.pos = s.pos + 1 := by simp [hs1]
    have hst1 : s1.stream = s.stream := by simp [hs1]
    obtain ⟨t, ht, hrest, hwr, hoth⟩ := ih (s := s1) (by omega) (by rw [hp1, hst1]; omega) fun i hi => by
      have := hval (i + 1) (by omega)
      rwa [show s.idx.toNat + (i + 1) = s1.idx.toNat + i by omega] at this
    refine ⟨t, ?_, ?_, ?_, ?_⟩
    · rw [payloadLoop_cons, consume_of_lt (by omega), going_andThen,
        storePayloadByte_of_some (by simpa using hl), going_andThen, ht]
    · rw [hrest, hs1, imgWrite_rest]
      simp only [bumpIdx, advance, List.length_cons, State.mk.injEq, true_and, and_true]
      refine ⟨by omega, ?_⟩
      have h1 : (1 : BitVec 9).toNat = 1 := rfl
      apply BitVec.eq_of_toNat_eq
      simp only [BitVec.toNat_add, BitVec.toNat_ofNat]
      omega
    · intro i m hi hm
      cases i with
      | zero =>
        rw [Nat.add_zero] at hm
        obtain rfl := Option.some.inj (hl.symm.trans hm)
        rw [hoth l fun j hj he => by have := payloadLoc_injective hl he; omega]
        simp [hs1]
      | succ i =>
        rw [show s.idx.toNat + (i + 1) = s1.idx.toNat + i by omega] at hm
        simpa using hwr i m (by simpa using hi) hm
    · intro m hm
      rw [hoth m fun i hi he => hm (i + 1) (by simpa using hi) (by
        rwa [show s.idx.toNat + (i + 1) = s1.idx.toNat + i by omega])]
      have : m ≠ l := fun he => hm 0 (by simp) (by rw [Nat.add_zero, he]; exact hl)
      simp [hs1, imgRead_imgWrite_other v (advance s) this]

/-! ### `PREFIX` -/

/-- Where its three bytes are there, `PREFIX` latches them (R132). -/
theorem recordHead_going {c bank : Byte} {len : Nat} {s : State} (h : s.pos + 3 ≤ s.stream.length) :
    recordHead c bank len s = .going
      { s with pos := s.pos + 3, ctrl := some c, bank := some bank, count := some (BitVec.ofNat 9 len), idx := 0 } := by
  rw [recordHead, consume_of_lt (by omega), going_thenDo, going_andThen, consume_of_lt (by simp; omega), going_thenDo,
    going_andThen, consume_of_lt (by simp; omega), going_thenDo]
  rfl

/-- Where the stream ends before a record's control byte. -/
theorem recordHead_end0 {c bank : Byte} {len : Nat} {s : State} (h : s.stream.length ≤ s.pos) :
    recordHead c bank len s = .raised (raise .unexpectedEnd s) := by
  rw [recordHead, consume_of_end h]; rfl

/-- Where the stream ends after the control byte. -/
theorem recordHead_end1 {c bank : Byte} {len : Nat} {s : State} (h : s.pos + 1 = s.stream.length) :
    recordHead c bank len s = .raised (raise .unexpectedEnd { s with pos := s.pos + 1, ctrl := some c }) := by
  rw [recordHead, consume_of_lt (by omega), going_thenDo, going_andThen, consume_of_end (by simp; omega)]; rfl

/-- Where the stream ends after the bank byte. -/
theorem recordHead_end2 {c bank : Byte} {len : Nat} {s : State} (h : s.pos + 2 = s.stream.length) :
    recordHead c bank len s =
      .raised (raise .unexpectedEnd { s with pos := s.pos + 2, ctrl := some c, bank := some bank }) := by
  rw [recordHead, consume_of_lt (by omega), going_thenDo, going_andThen, consume_of_lt (by simp; omega), going_thenDo,
    going_andThen, consume_of_end (by simp; omega)]
  rfl

/-! ### A record up to its trailer -/

/-- `PREFIX; PAYLOAD` where all of it is there and valid (R131). -/
theorem recordBody_going {c bank : Byte} {off : BitVec 5} {payload : List Byte} {s : State}
    (hlen : payload.length ≤ 256) (hpos : s.pos + 3 + payload.length ≤ s.stream.length)
    (hval : PayloadValid ⟨c, off, bank, payload⟩ payload.length) :
    ∃ t, recordBody c bank off payload s = .going t ∧ RecordEffect ⟨c, off, bank, payload⟩ payload.length s t ∧
      t.pos = s.pos + 3 + payload.length ∧ t.phase = s.phase ∧ t.err = s.err ∧ t.crc = s.crc ∧ t.acc = s.acc := by
  rw [recordBody, recordHead_going (by omega), going_andThen]
  obtain ⟨t, ht, hrest, hwr, hoth⟩ := payloadLoop_stored (bank := bank) (off := off) (vs := payload)
    (s := { s with pos := s.pos + 3, ctrl := some c, bank := some bank,
                   count := some (BitVec.ofNat 9 payload.length), idx := 0 })
    (by simpa using hlen) (by simpa using hpos) (by simpa [PayloadValid] using hval)
  refine ⟨t, ht, ⟨?_, ?_, ?_, ?_, ?_, ?_, ?_, ⟨fun i l hi hl => ?_, fun l hl => ?_⟩⟩, ?_, ?_, ?_, ?_, ?_⟩
  case refine_8 => exact hwr i l hi (by simpa using hl)
  case refine_9 => exact hoth l (by simpa using hl)
  all_goals rw [hrest]
  simp

/-- What `PAYLOAD` does at most, however it ends: the cursor, `PHASE`, `ERR`, `IDX` and the image may change, the image
only in the locations of the payload's bytes (R131). -/
theorem payloadLoop_frame (bank : Byte) (off : BitVec 5) (vs : List Byte) (s : State)
    (hidx : s.idx.toNat + vs.length ≤ 256) :
    (∃ p ph e k m m', (payloadLoop bank off vs s).state =
      { s with pos := p, phase := ph, err := e, idx := k, sram := m, lut := m' }) ∧
    ∀ l, (∀ k, k < vs.length → payloadLoc bank off (s.idx.toNat + k) ≠ some l) →
      imgRead (payloadLoop bank off vs s).state l = imgRead s l := by
  induction vs generalizing s with
  | nil => exact ⟨⟨_, _, _, _, _, _, rfl⟩, fun _ _ => rfl⟩
  | cons v vs ih =>
    rw [payloadLoop_cons]
    rcases consume_cases s with ⟨-, e⟩ | ⟨-, e⟩
    · rw [e, going_andThen]
      cases hl : payloadLoc bank off s.idx.toNat with
      | none =>
        rw [storePayloadByte_of_none (s := advance s) hl]
        exact ⟨⟨_, _, _, _, _, _, rfl⟩, fun _ _ => rfl⟩
      | some l =>
        rw [storePayloadByte_of_some (s := advance s) hl, going_andThen]
        have hid : (bumpIdx (imgWrite l v (advance s))).idx.toNat = s.idx.toNat + 1 := by
          simp only [bumpIdx_idx, imgWrite_idx, advance_idx, BitVec.toNat_add]
          simp only [List.length_cons] at hidx
          have : (1 : BitVec 9).toNat = 1 := rfl
          omega
        obtain ⟨⟨p, ph, e, k, m, m', h⟩, hoth⟩ := ih (bumpIdx (imgWrite l v (advance s)))
          (by rw [hid]; simp only [List.length_cons] at hidx; omega)
        refine ⟨⟨p, ph, e, k, m, m', ?_⟩, fun l' hl' => ?_⟩
        · rw [h, imgWrite_rest]; rfl
        · rw [hoth l' fun k hk => by
            have := hl' (k + 1) (by simpa using hk)
            rw [hid]; rwa [Nat.add_assoc, Nat.add_comm 1]]
          have h0 : l' ≠ l := fun he => hl' 0 (by simp) (by rw [he]; exact hl)
          exact imgRead_imgWrite_other v (advance s) h0
    · rw [e, raised_andThen, raised_andThen]
      exact ⟨⟨_, _, _, _, _, _, rfl⟩, fun _ _ => rfl⟩

/-- A record's body after its first `n` payload bytes, where they are there and have locations (R131). -/
theorem recordBody_taken {r : RecordFields} {s : State} {n : Nat} (hn : n ≤ r.payload.length)
    (hlen : r.payload.length ≤ 256) (hpos : s.pos + 3 + n ≤ s.stream.length) (hval : PayloadValid r n) :
    ∃ t, recordBody r.ctrl r.bank r.off r.payload s = payloadLoop r.bank r.off (r.payload.drop n) t ∧
      RecordEffect r n s t ∧
      t.pos = s.pos + 3 + n ∧ t.phase = s.phase ∧ t.err = s.err ∧ t.crc = s.crc ∧ t.acc = s.acc := by
  obtain ⟨c, off, bank, p⟩ := r
  simp only at *
  have hl : (p.take n).length = n := by simp [hn]
  obtain ⟨t, ht, hrest, hwr, hoth⟩ := payloadLoop_stored (bank := bank) (off := off) (vs := p.take n)
    (s := { s with pos := s.pos + 3, ctrl := some c, bank := some bank,
                   count := some (BitVec.ofNat 9 p.length), idx := 0 })
    (by simp; omega) (by simp; omega) (by rw [hl]; simpa [PayloadValid] using hval)
  refine ⟨t, ?_, ⟨?_, ?_, ?_, ?_, ?_, ?_, ?_, ⟨fun i l hi hl' => ?_, fun l hl' => ?_⟩⟩, ?_, ?_, ?_, ?_, ?_⟩
  case refine_1 =>
    conv_lhs => rw [← List.take_append_drop n p]
    rw [recordBody, recordHead_going (by omega), going_andThen, payloadLoop_append, List.take_append_drop, ht,
      going_andThen]
  case refine_9 => rw [hwr i l (by omega) (by simpa using hl')]; simp [hi]
  case refine_10 => exact hoth l (by rw [hl]; simpa using hl')
  all_goals rw [hrest]
  all_goals simp [hl]

/-- `PREFIX` ends in one of four ways (R132). -/
theorem recordHead_cases (c bank : Byte) (len : Nat) (s : State) :
    (s.stream.length ≤ s.pos ∧ recordHead c bank len s = .raised (raise .unexpectedEnd s)) ∨
    (s.pos + 1 = s.stream.length ∧
      recordHead c bank len s = .raised (raise .unexpectedEnd { s with pos := s.pos + 1, ctrl := some c })) ∨
    (s.pos + 2 = s.stream.length ∧
      recordHead c bank len s =
        .raised (raise .unexpectedEnd { s with pos := s.pos + 2, ctrl := some c, bank := some bank })) ∨
    (s.pos + 3 ≤ s.stream.length ∧
      recordHead c bank len s = .going
        { s with pos := s.pos + 3, ctrl := some c, bank := some bank, count := some (BitVec.ofNat 9 len), idx := 0 }) := by
  by_cases h0 : s.stream.length ≤ s.pos
  · exact .inl ⟨h0, recordHead_end0 h0⟩
  by_cases h1 : s.pos + 1 = s.stream.length
  · exact .inr (.inl ⟨h1, recordHead_end1 h1⟩)
  by_cases h2 : s.pos + 2 = s.stream.length
  · exact .inr (.inr (.inl ⟨h2, recordHead_end2 h2⟩))
  · have h3 : s.pos + 3 ≤ s.stream.length := by omega
    exact .inr (.inr (.inr ⟨h3, recordHead_going h3⟩))

/-- What a record's prefix and payload do at most, however they end (R131, R132). -/
theorem recordBody_frame (c bank : Byte) (off : BitVec 5) (payload : List Byte) (s : State)
    (hlen : payload.length ≤ 256) :
    (∃ p ph e ct b n k m m', (recordBody c bank off payload s).state =
      { s with
        pos := p, phase := ph, err := e, ctrl := ct, bank := b, count := n, idx := k, sram := m, lut := m' }) ∧
    ∀ l, (∀ k, k < payload.length → payloadLoc bank off k ≠ some l) →
      imgRead (recordBody c bank off payload s).state l = imgRead s l := by
  rw [recordBody]
  rcases recordHead_cases c bank payload.length s with ⟨-, e⟩ | ⟨-, e⟩ | ⟨-, e⟩ | ⟨-, e⟩ <;> rw [e]
  · exact ⟨⟨_, _, _, _, _, _, _, _, _, rfl⟩, fun _ _ => rfl⟩
  · exact ⟨⟨_, _, _, _, _, _, _, _, _, rfl⟩, fun _ _ => rfl⟩
  · exact ⟨⟨_, _, _, _, _, _, _, _, _, rfl⟩, fun _ _ => rfl⟩
  · rw [going_andThen]
    obtain ⟨⟨p, ph, e, k, m, m', h⟩, hoth⟩ := payloadLoop_frame bank off payload
      { s with pos := s.pos + 3, ctrl := some c, bank := some bank, count := some (BitVec.ofNat 9 payload.length), idx := 0 }
      (by simpa using hlen)
    exact ⟨⟨p, ph, e, _, _, _, k, m, m', h⟩, fun l hl => hoth l (by simpa using hl)⟩

/-! ### Trailers -/

/-- `TRAILER_TERM` where its byte is there (R150). -/
theorem trailerTerm_of_lt {term : Byte} {s : State} (h : s.pos < s.stream.length) :
    trailerTerm term s =
      if term = Config.TERM then .going (advance s) else .raised (raise .badTerminator (advance s)) := by
  rw [trailerTerm, consume_of_lt h, going_andThen]

theorem trailerTerm_of_end {term : Byte} {s : State} (h : s.stream.length ≤ s.pos) :
    trailerTerm term s = .raised (raise .unexpectedEnd s) := by
  rw [trailerTerm, consume_of_end h, raised_andThen]

/-- `TRAILER_CRC` where both bytes are there: the value is latched, whatever it is (R151, R152). -/
theorem trailerCrc_going {crc : BitVec 16} {s : State} (h : s.pos + 2 ≤ s.stream.length) :
    trailerCrc crc s = .going { s with pos := s.pos + 2, acc := (byteOf crc 1).setWidth 32, crc := some crc } := by
  rw [trailerCrc, nextN_more, consume_of_lt (by omega), going_andThen, nextN_one, consume_of_lt (by simp; omega),
    going_thenDo, foldByte_word16, foldByte_zero]
  rfl

/-- Where only the first byte is there, `CRC` keeps its value (R101 a, R151). -/
theorem trailerCrc_end1 {crc : BitVec 16} {s : State} (h : s.pos + 1 = s.stream.length) :
    trailerCrc crc s =
      .raised (raise .unexpectedEnd { s with pos := s.pos + 1, acc := (byteOf crc 1).setWidth 32 }) := by
  rw [trailerCrc, nextN_more, consume_of_lt (by omega), going_andThen, nextN_one, consume_of_end (by simp; omega),
    raised_thenDo, foldByte_zero]
  rfl

theorem trailerCrc_end0 {crc : BitVec 16} {s : State} (h : s.stream.length ≤ s.pos) :
    trailerCrc crc s = .raised (raise .unexpectedEnd s) := by
  rw [trailerCrc, nextN_more, consume_of_end h, raised_andThen]

/-- What `TRAILER_TERM` does at most. -/
theorem trailerTerm_frame (term : Byte) (s : State) :
    ∃ p ph e, (trailerTerm term s).state = { s with pos := p, phase := ph, err := e } := by
  rcases Nat.lt_or_ge s.pos s.stream.length with h | h
  · rw [trailerTerm_of_lt h]; split <;> exact ⟨_, _, _, rfl⟩
  · rw [trailerTerm_of_end h]; exact ⟨_, _, _, rfl⟩

/-- What `TRAILER_CRC` does at most. -/
theorem trailerCrc_frame (crc : BitVec 16) (s : State) :
    ∃ p ph e c a, (trailerCrc crc s).state = { s with pos := p, phase := ph, err := e, crc := c, acc := a } := by
  rcases Nat.lt_or_ge s.pos s.stream.length with h | h
  · by_cases h1 : s.pos + 1 = s.stream.length
    · rw [trailerCrc_end1 h1]; exact ⟨_, _, _, _, _, rfl⟩
    · rw [trailerCrc_going (by omega)]; exact ⟨_, _, _, _, _, rfl⟩
  · rw [trailerCrc_end0 h]; exact ⟨_, _, _, _, _, rfl⟩

/-! ### The meanings in their context -/

theorem inContext_of_eq {c : Context} {s : State} {f : State → Flow} (h : s.phase.context = some c) :
    inContext c s f = .next (f s).state := by rw [inContext, if_pos h]; rfl

theorem inContext_of_ne {c : Context} {s : State} {f : State → Flow} (h : s.phase.context ≠ some c) :
    inContext c s f = .refused .outOfContext := by rw [inContext, if_neg h]

theorem context_laterFrame_iff (p : Phase) : p.context = some .laterFrame ↔ p = .ctrl := by cases p <;> decide

theorem context_firstFrame_iff (p : Phase) : p.context = some .firstFrame ↔ p = .sync := by cases p <;> decide

end Sys2Proof.Machine
end

