-- ==== Sys2Proof/Laws/ByteStep.lean ====
section
/-! SUPPORT. Everything a byte step can do, said once: what later proofs cite instead of unfolding the phases. -/

namespace Sys2Proof.Machine

/-- A byte step that has read the byte `v`: one constructor per rule and outcome (R121–R126, R136–R139, R153–R155). -/
inductive Consumed (v : Byte) (s : State) : State → Prop
  | sync : s.phase = .sync → v = Config.SYNC → Consumed v s (setPhase .id0 (advance s))
  | badSync : s.phase = .sync → v ≠ Config.SYNC → Consumed v s (raise .badSync (advance s))
  | id0 : s.phase = .id0 → Consumed v s (setPhase .id1 (setAcc (v.setWidth 32) (advance s)))
  | id1 : s.phase = .id1 → Consumed v s (setPhase .id2 (setAcc (foldByte s.acc v) (advance s)))
  | id2 : s.phase = .id2 → Consumed v s (setPhase .id3 (setAcc (foldByte s.acc v) (advance s)))
  | id3 : s.phase = .id3 → Consumed v s (setPhase .addr (latchDevid (foldByte s.acc v) (advance s)))
  | addr : s.phase = .addr → Consumed v s (setPhase .rsvd (latchAddr v (advance s)))
  | rsvd : s.phase = .rsvd → Consumed v s (setPhase .ctrl (advance s))
  | ctrl : s.phase = .ctrl → Consumed v s (setPhase .bank (latchCtrl v (advance s)))
  | bank : s.phase = .bank → Consumed v s (setPhase .count (latchBank v (advance s)))
  | count : s.phase = .count → Consumed v s (setPhase .data (latchCount (payloadLength v) (advance s)))
  | stored (c b : Byte) (n : BitVec 9) (l : Loc) : s.phase = .data → s.ctrl = some c → s.bank = some b →
      s.count = some n → payloadLoc b (ctrlOffset c) s.idx.toNat = some l →
      Consumed v s (setPhase (if s.idx + 1 = n then trailerPhase c else .data) (bumpIdx (imgWrite l v (advance s))))
  | badBank (c b : Byte) (n : BitVec 9) : s.phase = .data → s.ctrl = some c → s.bank = some b →
      s.count = some n → payloadLoc b (ctrlOffset c) s.idx.toNat = none →
      Consumed v s (raise .badBank (advance s))
  | term (c : Byte) : s.phase = .term → s.ctrl = some c → v = Config.TERM →
      Consumed v s (setPhase (nextPhase c) (advance s))
  | badTerminator (c : Byte) : s.phase = .term → s.ctrl = some c → v ≠ Config.TERM →
      Consumed v s (raise .badTerminator (advance s))
  | crc0 : s.phase = .crc0 → Consumed v s (setPhase .crc1 (setAcc (v.setWidth 32) (advance s)))
  | crc1 (c : Byte) : s.phase = .crc1 → s.ctrl = some c →
      Consumed v s (setPhase (nextPhase c) (latchCrc ((foldByte s.acc v).setWidth 16) (advance s)))

/-- The payload step whose byte has a location (R139). -/
theorem onData_stored {c b : Byte} {n : BitVec 9} {v : Byte} {s : State} {l : Loc} (hp : s.phase = .data)
    (h : payloadLoc b (ctrlOffset c) s.idx.toNat = some l) :
    onData c b n v s = setPhase (if s.idx + 1 = n then trailerPhase c else .data) (bumpIdx (imgWrite l v s)) := by
  have hi := imgWrite_rest l v s
  have hid : (bumpIdx (imgWrite l v s)).idx = s.idx + 1 := by rw [hi]; rfl
  have hph : (bumpIdx (imgWrite l v s)).phase = .data := by rw [hi]; exact hp
  rw [onData, storePayloadByte_of_some h]
  simp only [hid]
  split
  · rfl
  · rw [setPhase, ← hph]

theorem onData_badBank {c b : Byte} {n : BitVec 9} {v : Byte} {s : State}
    (h : payloadLoc b (ctrlOffset c) s.idx.toNat = none) : onData c b n v s = raise .badBank s := by
  rw [onData, storePayloadByte_of_none h]

/-- A byte step that has a next state, in a phase that reads (`v` is the byte read). -/
theorem onByte_consumed {s t : State} {v : Byte} (hr : s.phase.running = true)
    (h : onByte s.phase v (advance s) = .next t) : Consumed v s t := by
  cases hp : s.phase <;> rw [hp] at h hr <;> simp only [onByte, advance_ctrl, advance_bank, advance_count] at h
  case sync =>
    by_cases hv : v = Config.SYNC
    · rw [onSync, if_pos hv] at h; cases h; exact .sync hp hv
    · rw [onSync, if_neg hv] at h; cases h; exact .badSync hp hv
  case id0 => cases h; exact .id0 hp
  case id1 => cases h; exact .id1 hp
  case id2 => cases h; exact .id2 hp
  case id3 => cases h; exact .id3 hp
  case addr => cases h; exact .addr hp
  case rsvd => cases h; exact .rsvd hp
  case ctrl => cases h; exact .ctrl hp
  case bank => cases h; exact .bank hp
  case count => cases h; exact .count hp
  case data =>
    split at h
    · rename_i c b n hc hb hn
      cases hl : payloadLoc b (ctrlOffset c) s.idx.toNat with
      | none => rw [onData_badBank (s := advance s) hl] at h; cases h; exact .badBank c b n hp hc hb hn hl
      | some l => rw [onData_stored (s := advance s) hp hl] at h; cases h; exact .stored c b n l hp hc hb hn hl
    · cases h
  case term =>
    split at h
    · rename_i c hc
      by_cases hv : v = Config.TERM
      · rw [onTerm, if_pos hv] at h; cases h; exact .term c hp hc hv
      · rw [onTerm, if_neg hv] at h; cases h; exact .badTerminator c hp hc hv
    · cases h
  case crc0 => cases h; exact .crc0 hp
  case crc1 =>
    split at h
    · rename_i c hc; cases h; exact .crc1 c hp hc
    · cases h
  case done => cases hr
  case err => cases hr
  case off => cases hr

/-- Everything a byte step with a next state can have done. -/
theorem byteStep_next {s t : State} (h : byteStep s = .next t) :
    (s.phase.running = false ∧ t = s) ∨
    (s.phase.running = true ∧ s.stream.length ≤ s.pos ∧ t = raise .unexpectedEnd s) ∨
    (∃ v, s.stream[s.pos]? = some v ∧ s.pos < s.stream.length ∧ Consumed v s t) := by
  rcases byteStep_cases s with ⟨hr, e⟩ | ⟨hr, hl, e⟩ | ⟨hr, v, hv, hl, e⟩
  · rw [e] at h; cases h; exact .inl ⟨hr, rfl⟩
  · rw [e] at h; cases h; exact .inr (.inl ⟨hr, hl, rfl⟩)
  · rw [e] at h; exact .inr (.inr ⟨v, hv, hl, onByte_consumed hr h⟩)

/-- The other direction: whatever `Consumed` says, the byte step does. -/
theorem byteStep_of_consumed {s t : State} {v : Byte} (hv : s.stream[s.pos]? = some v) (h : Consumed v s t) :
    byteStep s = .next t := by
  have go : ∀ {p : Phase}, s.phase = p → p.running = true → byteStep s = onByte p v (advance s) := by
    intro p hp hr; subst hp; exact byteStep_of_byte hr hv
  cases h with
  | sync hp h => rw [go hp rfl]; simp only [onByte, onSync, if_pos h]
  | badSync hp h => rw [go hp rfl]; simp only [onByte, onSync, if_neg h]
  | id0 hp => rw [go hp rfl]; rfl
  | id1 hp => rw [go hp rfl]; rfl
  | id2 hp => rw [go hp rfl]; rfl
  | id3 hp => rw [go hp rfl]; rfl
  | addr hp => rw [go hp rfl]; rfl
  | rsvd hp => rw [go hp rfl]; rfl
  | ctrl hp => rw [go hp rfl]; rfl
  | bank hp => rw [go hp rfl]; rfl
  | count hp => rw [go hp rfl]; rfl
  | stored c b n l hp hc hb hn hl =>
    rw [go hp rfl]
    simp only [onByte, advance_ctrl, advance_bank, advance_count, hc, hb, hn, onData_stored (s := advance s) hp hl]
    rfl
  | badBank c b n hp hc hb hn hl =>
    rw [go hp rfl]
    simp only [onByte, advance_ctrl, advance_bank, advance_count, hc, hb, hn, onData_badBank (s := advance s) hl]
  | term c hp hc h => rw [go hp rfl]; simp only [onByte, advance_ctrl, hc, onTerm, if_pos h]
  | badTerminator c hp hc h => rw [go hp rfl]; simp only [onByte, advance_ctrl, hc, onTerm, if_neg h]
  | crc0 hp => rw [go hp rfl]; rfl
  | crc1 c hp hc => rw [go hp rfl]; simp only [onByte, advance_ctrl, hc]; rfl

end Sys2Proof.Machine
end

