-- ==== Sys2Proof/Laws/Decode.lean ====
section
/-! SUPPORT. The decoder's and the encoder's parts: fields of the control byte, the count byte, the operand bytes. -/

namespace Sys2Proof

/-! ### The control byte (R73) -/

@[simp] theorem ctrlOffset_ctrlByte (x k c : Bool) (off : BitVec 5) : ctrlOffset (ctrlByte x k c off) = off := by
  revert x k c off; decide

@[simp] theorem ctrlUseCrc_ctrlByte (x k c : Bool) (off : BitVec 5) : ctrlUseCrc (ctrlByte x k c off) = c := by
  revert x k c off; decide

@[simp] theorem ctrlContinues_ctrlByte (x k c : Bool) (off : BitVec 5) : ctrlContinues (ctrlByte x k c off) = k := by
  revert x k c off; decide

@[simp] theorem ctrlIgnored_ctrlByte (x k c : Bool) (off : BitVec 5) : ctrlIgnored (ctrlByte x k c off) = x := by
  revert x k c off; decide

/-- A control byte is put together from its fields again. -/
@[simp] theorem ctrlByte_fields (c : Byte) :
    ctrlByte (ctrlIgnored c) (ctrlContinues c) (ctrlUseCrc c) (ctrlOffset c) = c := by
  revert c; decide

theorem ctrlByte_and_mask (x k c : Bool) (off : BitVec 5) :
    ctrlByte x k c off &&& 0x60 = ctrlByte false k c 0 := by
  revert x k c off; decide

/-! ### The count byte (R75) -/

theorem payloadLength_pos (n : Byte) : 1 ≤ payloadLength n := by
  unfold payloadLength
  split
  · decide
  · rename_i h
    have : n.toNat ≠ 0 := fun h0 => h (BitVec.eq_of_toNat_eq h0)
    omega

theorem payloadLength_le (n : Byte) : payloadLength n ≤ 256 := by
  have := n.isLt
  unfold payloadLength
  split
  · decide
  · omega

theorem payloadLength_countByte {len : Nat} (h1 : 1 ≤ len) (h2 : len ≤ 256) : payloadLength (countByte len) = len := by
  rcases Nat.lt_or_ge len 256 with h | h
  · have hn : (countByte len).toNat = len := by
      rw [countByte, BitVec.toNat_ofNat]; omega
    have h0 : ¬ countByte len = 0 := fun h0 => by rw [h0] at hn; simp at hn; omega
    rw [payloadLength, if_neg h0, hn]
  · obtain rfl : len = 256 := by omega
    decide

theorem countByte_payloadLength (n : Byte) : countByte (payloadLength n) = n := by
  unfold payloadLength countByte
  split
  · rename_i h; subst h; decide
  · simp

theorem payloadFits_iff (payload : List Byte) :
    payloadFits payload = true ↔ 1 ≤ payload.length ∧ payload.length ≤ 256 := by
  rw [payloadFits, Bool.and_eq_true, decide_eq_true_eq, decide_eq_true_eq]; rfl

/-! ### Operand bytes -/

@[simp] theorem takeFill_length (n : Nat) (bs : List Byte) : (takeFill n bs).length = n := by
  induction n generalizing bs with
  | zero => rfl
  | succ n ih => cases bs <;> simp [takeFill, ih]

theorem takeFill_eq_take {n : Nat} {bs : List Byte} (h : n ≤ bs.length) : takeFill n bs = bs.take n := by
  induction n generalizing bs with
  | zero => rfl
  | succ n ih =>
    cases bs with
    | nil => simp at h
    | cons b bs => rw [takeFill, ih (by simpa using h), List.take_succ_cons]

theorem takeFill_append (payload rest : List Byte) : takeFill payload.length (payload ++ rest) = payload := by
  rw [takeFill_eq_take (by simp), List.take_left]

/-- A byte that the stream has reads as itself. -/
theorem takeFill_getElem? {n k : Nat} {bs : List Byte} (hk : k < n) (hb : k < bs.length) :
    (takeFill n bs)[k]? = bs[k]? := by
  induction n generalizing k bs with
  | zero => omega
  | succ n ih =>
    cases bs with
    | nil => simp at hb
    | cons b bs =>
      cases k with
      | zero => rfl
      | succ k => simpa [takeFill] using ih (by omega) (by simpa using hb)

theorem fillAt_of_lt {bs : List Byte} {k : Nat} (h : k < bs.length) : bs[k]? = some (fillAt bs k) := by
  simp [fillAt, List.getD_eq_getElem?_getD, h]

/-! ### Multi-byte operands (R79) -/

theorem bigEndian32_bytes (d : BitVec 32) :
    bigEndian32 (byteOf d 3) (byteOf d 2) (byteOf d 1) (byteOf d 0) = d := by
  apply BitVec.eq_of_getLsbD_eq
  intro i hi
  simp only [bigEndian32, byteOf, BitVec.getLsbD_append, BitVec.getLsbD_extractLsb']
  split
  · rename_i h; simp [h]
  · split
    · rename_i h h2; simp [h2]; congr 1; omega
    · split
      · rename_i h h2 h3; simp [h3]; congr 1; omega
      · rename_i h h2 h3
        have : i - 8 - 8 - 8 < 8 := by omega
        simp [this]; congr 1; omega

theorem bigEndian16_bytes (c : BitVec 16) : bigEndian16 (byteOf c 1) (byteOf c 0) = c := by
  apply BitVec.eq_of_getLsbD_eq
  intro i hi
  simp only [bigEndian16, byteOf, BitVec.getLsbD_append, BitVec.getLsbD_extractLsb']
  split
  · rename_i h; simp [h]
  · rename_i h
    have : i - 8 < 8 := by omega
    simp [this]; congr 1; omega

theorem byteOf_bigEndian32 (b3 b2 b1 b0 : Byte) :
    byteOf (bigEndian32 b3 b2 b1 b0) 3 = b3 ∧ byteOf (bigEndian32 b3 b2 b1 b0) 2 = b2 ∧
      byteOf (bigEndian32 b3 b2 b1 b0) 1 = b1 ∧ byteOf (bigEndian32 b3 b2 b1 b0) 0 = b0 := by
  refine ⟨?_, ?_, ?_, ?_⟩ <;>
  · apply BitVec.eq_of_getLsbD_eq
    intro i hi
    simp only [bigEndian32, byteOf, BitVec.getLsbD_append, BitVec.getLsbD_extractLsb', hi, decide_true, Bool.true_and]
    repeat' split
    all_goals first | omega | (congr 1; omega)

theorem byteOf_bigEndian16 (hi lo : Byte) :
    byteOf (bigEndian16 hi lo) 1 = hi ∧ byteOf (bigEndian16 hi lo) 0 = lo := by
  refine ⟨?_, ?_⟩ <;>
  · apply BitVec.eq_of_getLsbD_eq
    intro i hi
    simp only [bigEndian16, byteOf, BitVec.getLsbD_append, BitVec.getLsbD_extractLsb', hi, decide_true, Bool.true_and]
    repeat' split
    all_goals first | omega | (congr 1; omega)

/-! ### Records -/

theorem drop_record_body (bank n : Byte) (payload trailer : List Byte) :
    List.drop (2 + payload.length) (bank :: n :: (payload ++ trailer)) = trailer := by
  rw [Nat.add_comm]; exact List.drop_left

/-- What the decoder reads after a control byte `c` when bank, count, payload and then `trailer` stand there (R72). -/
theorem decodeRecord_body {c bank : Byte} {payload trailer : List Byte} (h : payloadFits payload = true) :
    decodeRecord c (bank :: countByte payload.length :: (payload ++ trailer)) =
      match ctrlUseCrc c, ctrlContinues c with
      | false, false => (.recTL (ctrlIgnored c) (ctrlOffset c) bank payload (fillAt trailer 0), trailer.drop 1)
      | false, true => (.recTC (ctrlIgnored c) (ctrlOffset c) bank payload (fillAt trailer 0), trailer.drop 1)
      | true, false =>
        (.recCL (ctrlIgnored c) (ctrlOffset c) bank payload (bigEndian16 (fillAt trailer 0) (fillAt trailer 1)), trailer.drop 2)
      | true, true =>
        (.recCC (ctrlIgnored c) (ctrlOffset c) bank payload (bigEndian16 (fillAt trailer 0) (fillAt trailer 1)), trailer.drop 2) := by
  obtain ⟨h1, h2⟩ := (payloadFits_iff payload).1 h
  have hb : fillAt (bank :: countByte payload.length :: (payload ++ trailer)) 0 = bank := rfl
  have hn : fillAt (bank :: countByte payload.length :: (payload ++ trailer)) 1 = countByte payload.length := rfl
  have hd : (bank :: countByte payload.length :: (payload ++ trailer)).drop 2 = payload ++ trailer := rfl
  cases hu : ctrlUseCrc c <;> cases hk : ctrlContinues c <;>
    simp only [decodeRecord, hu, hk, hb, hn, payloadLength_countByte h1 h2, drop_record_body, hd, takeFill_append]

end Sys2Proof
end

