-- ==== Sys2Proof/Laws/Exec.lean ====
section
/-! SUPPORT. The four record meanings in one shape: prefix and payload, the form's trailer, the phase that the control
byte's `CONT` gives (R132–R135, R156). -/

namespace Sys2Proof.Machine

/-- The trailer procedure of a frame form (R150, R151). -/
def trailerOf : Instr → State → Flow
  | .hdr _ _ _ => Flow.going
  | .recTL _ _ _ _ term => trailerTerm term
  | .recTC _ _ _ _ term => trailerTerm term
  | .recCL _ _ _ _ crc => trailerCrc crc
  | .recCC _ _ _ _ crc => trailerCrc crc

theorem exec_record {i : Instr} {r : RecordFields} (h : recordFields i = some r) (s : State) :
    exec i s = inContext .laterFrame s fun s =>
      ((recordBody r.ctrl r.bank r.off r.payload s).andThen (trailerOf i)).thenDo (setPhase (nextPhase r.ctrl)) := by
  cases i with
  | hdr => cases h
  | recTL => cases h; simp only [nextPhase, ctrlContinues_ctrlByte]; rfl
  | recTC => cases h; simp only [nextPhase, ctrlContinues_ctrlByte]; rfl
  | recCL => cases h; simp only [nextPhase, ctrlContinues_ctrlByte]; rfl
  | recCC => cases h; simp only [nextPhase, ctrlContinues_ctrlByte]; rfl

/-- The start offset of a record is in its control byte (R73). -/
theorem recordFields_off {i : Instr} {r : RecordFields} (h : recordFields i = some r) : ctrlOffset r.ctrl = r.off := by
  cases i with
  | hdr => cases h
  | recTL => cases h; exact ctrlOffset_ctrlByte ..
  | recTC => cases h; exact ctrlOffset_ctrlByte ..
  | recCL => cases h; exact ctrlOffset_ctrlByte ..
  | recCC => cases h; exact ctrlOffset_ctrlByte ..

/-- A record in its phase takes a next state, completing or failing (R165). -/
theorem exec_record_next {i : Instr} {r : RecordFields} (h : recordFields i = some r) {s : State}
    (hp : s.phase = .ctrl) :
    exec i s = .next (((recordBody r.ctrl r.bank r.off r.payload s).andThen (trailerOf i)).thenDo
      (setPhase (nextPhase r.ctrl))).state := by
  rw [exec_record h, inContext_of_eq ((context_laterFrame_iff _).2 hp)]

end Sys2Proof.Machine
end

