-- ==== Sys2Proof/Laws/ByteFrame.lean ====
section
/-! SUPPORT. Byte steps taken until a frame boundary, and runs of byte steps: how they unfold, and what the byte steps of a
payload and of a trailer amount to (R140's parts). -/

namespace Sys2Proof.Machine

/-- A byte step that stays inside the frame: the run goes on. -/
theorem byteFrame_of_mid {s t : State} (h : byteStep s = .next t) (hm : t.phase.midFrame = true) (k : Nat) :
    byteFrame (k + 1) s = byteFrame k t := by
  simp only [byteFrame, h, hm, if_true]

/-- A byte step that reaches a frame boundary or a terminal phase ends the run. -/
theorem byteFrame_of_boundary {s t : State} (h : byteStep s = .next t) (hm : t.phase.midFrame = false) (k : Nat) :
    byteFrame k s = .next t := by
  cases k with
  | zero => exact h
  | succ k => simp [byteFrame, h, hm]

theorem nextPhase_midFrame (c : Byte) : (nextPhase c).midFrame = false := by unfold nextPhase; split <;> rfl

/-- Writing a cell and setting the phase commute. -/
theorem imgWrite_setPhase (l : Loc) (v : Byte) (p : Phase) (s : State) :
    imgWrite l v (setPhase p s) = setPhase p (imgWrite l v s) := by
  unfold imgWrite; split <;> rfl

/-- A byte that the stream has, as the decoder reads it. -/
theorem fillAt_drop {s : State} {v : Byte} {j : Nat} (h : s.stream[s.pos + j]? = some v) :
    fillAt (s.stream.drop s.pos) j = v := by
  simp [fillAt, List.getD_eq_getElem?_getD, h]

/-- Inside a frame, an exhausted stream ends the run with `UnexpectedEnd` (R161). -/
theorem byteFrame_of_end {s : State} {p : Phase} (hr : p.running = true) (h : s.stream.length ≤ s.pos) (k : Nat) :
    byteFrame k (setPhase p s) = .next (raise .unexpectedEnd s) :=
  byteFrame_of_boundary (t := raise .unexpectedEnd s) (byteStep_of_end (s := setPhase p s) hr h) rfl k

/-- From `P_TERM` the byte steps do what `TRAILER_TERM` does (R150, R153, R156). -/
theorem byteFrame_term {s : State} {c : Byte} (hc : s.ctrl = some c) (k : Nat) :
    byteFrame k (setPhase .term s) =
      .next ((trailerTerm (fillAt (s.stream.drop s.pos) 0) s).thenDo (setPhase (nextPhase c))).state := by
  rcases next_cases s with ⟨v, hv, hl, -⟩ | ⟨hl, -⟩
  · rw [fillAt_drop (j := 0) hv, trailerTerm_of_lt hl]
    by_cases h : v = Config.TERM
    · rw [if_pos h]
      exact byteFrame_of_boundary (byteStep_of_consumed (s := setPhase .term s) hv (.term c rfl hc h)) (nextPhase_midFrame c) k
    · rw [if_neg h]
      exact byteFrame_of_boundary (byteStep_of_consumed (s := setPhase .term s) hv (.badTerminator c rfl hc h)) rfl k
  · rw [byteFrame_of_end rfl hl, trailerTerm_of_end hl]; rfl

/-- From `P_CRC0` the byte steps do what `TRAILER_CRC` does (R151, R154, R155, R156). -/
theorem byteFrame_crc {s : State} {c : Byte} (hc : s.ctrl = some c) (k : Nat) :
    byteFrame (k + 1) (setPhase .crc0 s) =
      .next ((trailerCrc (bigEndian16 (fillAt (s.stream.drop s.pos) 0) (fillAt (s.stream.drop s.pos) 1)) s).thenDo
        (setPhase (nextPhase c))).state := by
  rcases next_cases s with ⟨v, hv, hl, -⟩ | ⟨hl, -⟩
  · rw [fillAt_drop (j := 0) hv]
    rw [byteFrame_of_mid (byteStep_of_consumed (s := setPhase .crc0 s) hv (.crc0 rfl)) rfl k]
    by_cases h1 : s.pos + 1 = s.stream.length
    · rw [trailerCrc_end1 h1, (byteOf_bigEndian16 _ _).1]
      exact byteFrame_of_end (s := setAcc (v.setWidth 32) (advance s)) (p := .crc1) rfl (by simp; omega) k
    · obtain ⟨w, hw⟩ : ∃ w, s.stream[s.pos + 1]? = some w := ⟨_, List.getElem?_eq_getElem (by omega)⟩
      rw [fillAt_drop (j := 1) hw, trailerCrc_going (by omega), (byteOf_bigEndian16 _ _).1]
      have := byteFrame_of_boundary (byteStep_of_consumed (s := setPhase .crc1 (setAcc (v.setWidth 32) (advance s))) (v := w) hw (.crc1 c rfl hc)) (nextPhase_midFrame c) k
      refine this.trans ?_
      have e : ((foldByte (v.setWidth 32) w).setWidth 16) = bigEndian16 v w := by
        have := foldByte_word16 (bigEndian16 v w)
        rwa [(byteOf_bigEndian16 _ _).1, (byteOf_bigEndian16 _ _).2, foldByte_zero] at this
      show Host.Outcome.next (setPhase _ (latchCrc ((foldByte (v.setWidth 32) w).setWidth 16) _)) = _
      rw [e]; rfl
  · rw [byteFrame_of_end rfl hl, trailerCrc_end0 hl]; rfl

/-- The trailer procedure that the control byte `c` selects, on the bytes at the cursor (R77). -/
def trailerAt (c : Byte) (s : State) : Flow :=
  if ctrlUseCrc c then trailerCrc (bigEndian16 (fillAt (s.stream.drop s.pos) 0) (fillAt (s.stream.drop s.pos) 1)) s
  else trailerTerm (fillAt (s.stream.drop s.pos) 0) s

/-- From the trailer's first phase the byte steps do what the trailer procedure does. -/
theorem byteFrame_trailer {s : State} {c : Byte} (hc : s.ctrl = some c) (k : Nat) :
    byteFrame (k + 1) (setPhase (trailerPhase c) s) = .next ((trailerAt c s).thenDo (setPhase (nextPhase c))).state := by
  unfold trailerAt trailerPhase
  split
  · exact byteFrame_crc hc k
  · exact byteFrame_term hc _

theorem trailerPhase_midFrame (c : Byte) : (trailerPhase c).midFrame = true := by unfold trailerPhase; split <;> rfl

/-- From `P_DATA`, with `m + 1` payload bytes to come, the byte steps do what `PAYLOAD` and the trailer do (R131, R139). -/
theorem byteFrame_data {c b : Byte} {n : BitVec 9} (m : Nat) : ∀ (s : State) (k : Nat),
    s.ctrl = some c → s.bank = some b → s.count = some n →
    s.idx.toNat + (m + 1) = n.toNat → 
    byteFrame (m + 2 + k) (setPhase .data s) =
      .next (((payloadLoop b (ctrlOffset c) (takeFill (m + 1) (s.stream.drop s.pos)) s).andThen (trailerAt c)).thenDo
        (setPhase (nextPhase c))).state := by
  induction m with
  | zero =>
    intro s k hc hb hn hi
    rcases next_cases s with ⟨v, hv, hl, -⟩ | ⟨hl, -⟩
    · have ht : takeFill (0 + 1) (s.stream.drop s.pos) = [v] := by
        rw [takeFill_eq_take (by simp; omega), List.drop_eq_getElem_cons hl]
        rw [List.getElem?_eq_getElem hl] at hv; cases hv; rfl
      rw [ht, payloadLoop_cons, consume_of_lt hl, going_andThen]
      cases hloc : payloadLoc b (ctrlOffset c) s.idx.toNat with
      | none =>
        rw [storePayloadByte_of_none (s := advance s) hloc]
        exact byteFrame_of_boundary (byteStep_of_consumed (s := setPhase .data s) hv (.badBank c b n rfl hc hb hn hloc)) rfl _
      | some l =>
        rw [storePayloadByte_of_some (s := advance s) hloc, going_andThen, payloadLoop_nil, going_andThen]
        have hst := byteStep_of_consumed (s := setPhase .data s) hv (.stored c b n l rfl hc hb hn hloc)
        have hin : (setPhase .data s).idx + 1 = n := by
          apply BitVec.eq_of_toNat_eq; rw [BitVec.toNat_add]; simp only [setPhase_idx]
          have := n.isLt; have h1 : (1 : BitVec 9).toNat = 1 := rfl; omega
        rw [if_pos hin] at hst
        rw [show 0 + 2 + k = (k + 1) + 1 by omega, byteFrame_of_mid hst (trailerPhase_midFrame c)]
        have := byteFrame_trailer (s := bumpIdx (imgWrite l v (advance s))) (c := c) (by simpa using hc) k
        rw [← this]
        show byteFrame (k+1) (setPhase _ (bumpIdx (imgWrite l v (setPhase .data (advance s))))) = _
        rw [imgWrite_setPhase]; rfl
    · rw [byteFrame_of_end rfl hl]
      rw [show s.stream.drop s.pos = [] from List.drop_eq_nil_of_le hl]
      simp only [takeFill, payloadLoop_cons, consume_of_end hl, raised_andThen]; rfl
  | succ m ih =>
    intro s k hc hb hn hi
    rcases next_cases s with ⟨v, hv, hl, -⟩ | ⟨hl, -⟩
    · have ht : takeFill (m + 1 + 1) (s.stream.drop s.pos) = v :: takeFill (m + 1) (s.stream.drop (s.pos + 1)) := by
        rw [List.drop_eq_getElem_cons hl]
        rw [List.getElem?_eq_getElem hl] at hv; cases hv; rfl
      rw [ht, payloadLoop_cons, consume_of_lt hl, going_andThen]
      cases hloc : payloadLoc b (ctrlOffset c) s.idx.toNat with
      | none =>
        rw [storePayloadByte_of_none (s := advance s) hloc]
        exact byteFrame_of_boundary (byteStep_of_consumed (s := setPhase .data s) hv (.badBank c b n rfl hc hb hn hloc)) rfl _
      | some l =>
        rw [storePayloadByte_of_some (s := advance s) hloc, going_andThen]
        have hst := byteStep_of_consumed (s := setPhase .data s) hv (.stored c b n l rfl hc hb hn hloc)
        have hnlt := n.isLt
        have h1 : (1 : BitVec 9).toNat = 1 := rfl
        have hin : ¬ (setPhase .data s).idx + 1 = n := by
          intro he
          have := congrArg BitVec.toNat he
          rw [BitVec.toNat_add] at this; simp only [setPhase_idx] at this
          omega
        rw [if_neg hin] at hst
        rw [show m + 1 + 2 + k = (m + 2 + k) + 1 by omega, byteFrame_of_mid hst rfl]
        have := ih (bumpIdx (imgWrite l v (advance s))) k (by simpa using hc) (by simpa using hb) (by simpa using hn)
          (by simp only [bumpIdx_idx, imgWrite_idx, advance_idx, BitVec.toNat_add]; omega)
        simp only [bumpIdx_stream, imgWrite_stream, advance_stream, bumpIdx_pos, imgWrite_pos, advance_pos] at this
        rw [← this]
        show byteFrame (m + 2 + k) (setPhase _ (bumpIdx (imgWrite l v (setPhase .data (advance s))))) = _
        rw [imgWrite_setPhase]; rfl
    · rw [byteFrame_of_end rfl hl]
      rw [show s.stream.drop s.pos = [] from List.drop_eq_nil_of_le hl]
      simp only [takeFill, payloadLoop_cons, consume_of_end hl, raised_andThen]; rfl

/-- Where `PAYLOAD` completes, the cursor stands behind the payload. -/
theorem payloadLoop_going_pos {b : Byte} {off : BitVec 5} {vs : List Byte} {s u : State} (h : payloadLoop b off vs s = .going u) :
    u.pos = s.pos + vs.length ∧ u.stream = s.stream := by
  induction vs generalizing s with
  | nil => cases h; exact ⟨rfl, rfl⟩
  | cons v vs ih =>
    rw [payloadLoop_cons] at h
    rcases consume_cases s with ⟨-, e⟩ | ⟨-, e⟩
    · rw [e, going_andThen] at h
      cases hl : payloadLoc b off s.idx.toNat with
      | none => rw [storePayloadByte_of_none (s := advance s) hl] at h; cases h
      | some l =>
        rw [storePayloadByte_of_some (s := advance s) hl, going_andThen] at h
        obtain ⟨h1, h2⟩ := ih h
        simp at h1 h2
        exact ⟨by rw [h1]; simp; omega, h2⟩
    · rw [e] at h; cases h

/-- Two continuations that agree on the state reached. -/
theorem andThen_congr {f : Flow} {k k' : State → Flow} (h : ∀ u, f = .going u → k u = k' u) : f.andThen k = f.andThen k' := by
  cases f with
  | going u => exact h u rfl
  | raised u => rfl

/-! ### Runs of byte steps -/

/-- A run in two parts. -/
theorem byteRun_add (a b : Nat) (s : State) :
    byteRun (a + b) s =
      match byteRun a s with
      | .next t => byteRun b t
      | .fault f => .fault f
      | .refused f => .refused f := by
  induction a generalizing s with
  | zero => simp [byteRun]
  | succ a ih =>
    rw [show a + 1 + b = (a + b) + 1 by omega]
    simp only [byteRun]
    cases byteStep s with
    | next t => exact ih t
    | fault f => rfl
    | refused f => rfl

/-- A terminal state stays (R157). -/
theorem byteRun_of_terminal {s : State} (h : s.phase.running = false) (k : Nat) : byteRun k s = .next s := by
  induction k with
  | zero => rfl
  | succ k ih => simp only [byteRun, byteStep_of_terminal h]; exact ih

/-- A frame's byte steps are a run of at least one byte step. -/
theorem byteFrame_run (k : Nat) : ∀ s t : State, byteFrame k s = .next t → ∃ j, byteRun (j + 1) s = .next t := by
  induction k with
  | zero => intro s t h; exact ⟨0, by simp only [byteFrame] at h; simp only [byteRun, h]⟩
  | succ k ih =>
    intro s t h
    simp only [byteFrame] at h
    cases hs : byteStep s with
    | next u =>
      rw [hs] at h; simp only at h
      split at h
      · obtain ⟨j, hj⟩ := ih u t h
        exact ⟨j + 1, by rw [byteRun, hs]; exact hj⟩
      · cases h; exact ⟨0, by simp only [byteRun, hs]⟩
    | fault f => rw [hs] at h; cases h
    | refused f => rw [hs] at h; cases h

/-- A relation between states that every byte step carries along is carried along by whole frames. -/
theorem byteFrame_sim {R : State → State → Prop} (hphase : ∀ s s', R s s' → s.phase = s'.phase)
    (hb : ∀ s s' t, R s s' → byteStep s = .next t → ∃ t', byteStep s' = .next t' ∧ R t t') (k : Nat) :
    ∀ s s' t, R s s' → byteFrame k s = .next t → ∃ t', byteFrame k s' = .next t' ∧ R t t' := by
  induction k with
  | zero => exact hb
  | succ k ih =>
    intro s s' t hr h
    simp only [byteFrame] at h ⊢
    cases hs : byteStep s with
    | next u =>
      obtain ⟨u', hu', hru⟩ := hb s s' u hr hs
      rw [hs] at h; rw [hu']
      simp only at h ⊢
      rw [← hphase u u' hru]
      split at h
      · rename_i hm; rw [if_pos hm]; exact ih u u' t hru h
      · rename_i hm; rw [if_neg hm]; cases h; exact ⟨u', rfl, hru⟩
    | fault f => rw [hs] at h; cases h
    | refused f => rw [hs] at h; cases h

/-- A byte step that has read a byte moves the cursor by one and leaves the stream. -/
theorem Consumed.cursor {v : Byte} {s t : State} (h : Consumed v s t) : t.pos = s.pos + 1 ∧ t.stream = s.stream := by
  cases h <;> simp

end Sys2Proof.Machine
end

