-- ==== Sys2Proof/Laws/PerInstr.lean ====
section
/-! SUPPORT. A statement about every frame form as syntax: the first byte of its encoding is what the opcode table's mask
and match say (R81). -/

namespace Sys2Proof.Laws.FirstByte

/-- The frame's encoding has a first byte, and it satisfies the row's mask and match (R81). -/
def Statement (i : Instr) : Prop :=
  ∃ b bs, encode i = b :: bs ∧ b &&& firstByteMask i = firstByteMatch i

theorem hdr (devid : BitVec 32) (addr rsvd : Byte) : Statement (.hdr devid addr rsvd) :=
  ⟨_, _, rfl, show (0xD5 : Byte) &&& 0xFF = 0xD5 by decide⟩

theorem recTL (x : Bool) (off : BitVec 5) (bank : Byte) (payload : List Byte) (term : Byte) :
    Statement (.recTL x off bank payload term) :=
  ⟨_, _, rfl, ctrlByte_and_mask x false false off⟩

theorem recTC (x : Bool) (off : BitVec 5) (bank : Byte) (payload : List Byte) (term : Byte) :
    Statement (.recTC x off bank payload term) :=
  ⟨_, _, rfl, ctrlByte_and_mask x true false off⟩

theorem recCL (x : Bool) (off : BitVec 5) (bank : Byte) (payload : List Byte) (crc : BitVec 16) :
    Statement (.recCL x off bank payload crc) :=
  ⟨_, _, rfl, ctrlByte_and_mask x false true off⟩

theorem recCC (x : Bool) (off : BitVec 5) (bank : Byte) (payload : List Byte) (crc : BitVec 16) :
    Statement (.recCC x off bank payload crc) :=
  ⟨_, _, rfl, ctrlByte_and_mask x true true off⟩

end Sys2Proof.Laws.FirstByte
end

