-- ==== Sys2Proof/Tests/Slice0.lean ====
section
/-! SUPPORT. The model's own tests. Expected values are the spec's own examples and vectors (`95_test_vectors.md`, the worked
examples of R120 and R132–R135), or computed from the rules by hand. The second half holds, for every statement with
hypotheses, a state and operands that meet them together. -/

namespace Sys2Proof.Tests

open Sys2Proof.Machine

-- One theorem after another: in parallel these small evaluations take a thread, and its memory, each.
set_option Elab.async false

/-! ### Helpers -/

/-- The header `H` of `95_test_vectors.md`. -/
def hdrBytes : List Byte := [0xD5, 0x00, 0x00, 0x00, 0x01, 0x02, 0x00]

/-- The state after `H`, with the bytes of a record behind it. -/
def afterHdr (record : List Byte) : State :=
  { startState (hdrBytes ++ record) with pos := 7, phase := .ctrl, devid := some 0x00000001, addr := some 0x02 }

/-- The state of an outcome that has one. -/
def stateOf (o : Host.Outcome State Fault Refusal) : Option State :=
  match o with
  | .next t => some t
  | .fault _ => none
  | .refused _ => none

/-- A view of an outcome's state. -/
def seen {α : Type} (f : State → α) (o : Host.Outcome State Fault Refusal) : Option α := (stateOf o).map f

def sramAt (k : Fin 11) (j : Fin 32) : Loc := ⟨.sram, k, j⟩

def lutAt (k : Fin 11) (j : Fin 32) : Loc := ⟨.lut, k, j⟩

/-! ### Well-formedness: each check refuses an ill-formed frame -/

theorem test_wf_accepts : (Instr.recTL false 0 0x00 [0xAA] 0x2A).wellFormed = true := by decide

theorem test_wf_refuses_empty_payload :
    (Instr.recTL false 0 0x00 [] 0x2A).wellFormed = false ∧ (Instr.recTC false 0 0x00 [] 0x2A).wellFormed = false ∧
    (Instr.recCL false 0 0x00 [] 0xBEEF).wellFormed = false ∧ (Instr.recCC false 0 0x00 [] 0xBEEF).wellFormed = false := by
  decide

theorem test_wf_refuses_long_payload : (Instr.recCC false 0 0x00 (List.replicate 257 0x00) 0xBEEF).wellFormed = false := by
  decide +kernel

theorem test_wf_accepts_longest_payload :
    (Instr.recCC false 0 0x00 (List.replicate 256 0x00) 0xBEEF).wellFormed = true := by decide +kernel

theorem test_wf_refuses_wrong_terminator :
    (Instr.recTL false 0 0x00 [0xAA] 0x2B).wellFormed = false ∧ (Instr.recTC false 0 0x00 [0xAA] 0x00).wellFormed = false := by
  decide

/-! ### Decoding: words written out from the spec's encodings -/

/-- V-H-5: `HDR id=12345678 addr=9A rsvd=FF`. -/
theorem test_decode_hdr :
    (decode .firstFrame [0xD5, 0x12, 0x34, 0x56, 0x78, 0x9A, 0xFF]).toOption = some (.hdr 0x12345678 0x9A 0xFF, []) := by
  decide

/-- R132, with an `x00sssss` control byte written bit by bit: `x` = 1, `off` = 30 (L2 with bit 7 set). -/
theorem test_decode_recTL :
    (decode .laterFrame [0b10011110, 0x00, 0x04, 0x11, 0x22, 0x33, 0x44, 0x2A]).toOption =
      some (.recTL true 30 0x00 [0x11, 0x22, 0x33, 0x44] 0x2A, []) := by decide

/-- P5: `REC.TC off=5 bank=03 data=[10 20 30]`, control byte `x10sssss`; the byte behind it is left over. -/
theorem test_decode_recTC :
    (decode .laterFrame [0b01000101, 0x03, 0x03, 0x10, 0x20, 0x30, 0x2A, 0x3F]).toOption =
      some (.recTC false 5 0x03 [0x10, 0x20, 0x30] 0x2A, [0x3F]) := by decide

/-- P5: `REC.CL off=31 bank=19 data=[0A 0B] crc=C0DE`, control byte `x01sssss`. -/
theorem test_decode_recCL :
    (decode .laterFrame [0b00111111, 0x19, 0x02, 0x0A, 0x0B, 0xC0, 0xDE]).toOption =
      some (.recCL false 31 0x19 [0x0A, 0x0B] 0xC0DE, []) := by decide

/-- P2: `REC.CC off=3 bank=10 data=[DE AD] crc=BEEF`, control byte `x11sssss`. -/
theorem test_decode_recCC :
    (decode .laterFrame [0b01100011, 0x10, 0x02, 0xDE, 0xAD, 0xBE, 0xEF]).toOption =
      some (.recCC false 3 0x10 [0xDE, 0xAD] 0xBEEF, []) := by decide

/-- L3: count byte `00` means 256 payload bytes. -/
theorem test_decode_count_zero :
    (decode .laterFrame ([0x1F, 0x02, 0x00] ++ List.replicate 256 0x55 ++ [0x2A])).toOption =
      some (.recTL false 31 0x02 (List.replicate 256 0x55) 0x2A, []) := by decide +kernel

/-- V-H-11, V-H-12: a first byte other than `D5` is `BadSync`; no byte at all is `UnexpectedEnd`. -/
theorem test_decode_rejects :
    (match decode .firstFrame [0x2A, 0x00] with | .ok _ => none | .error r => some r) = some Reject.badSync ∧
    (match decode .firstFrame [] with | .ok _ => none | .error r => some r) = some Reject.unexpectedEnd := by decide

/-- P2 and P5 in the other direction. -/
theorem test_encode :
    encode (.hdr 0xDEADBEEF 0x07 0x55) = [0xD5, 0xDE, 0xAD, 0xBE, 0xEF, 0x07, 0x55] ∧
    encode (.recTC false 5 0x03 [0x10, 0x20, 0x30] 0x2A) = [0x45, 0x03, 0x03, 0x10, 0x20, 0x30, 0x2A] ∧
    encode (.recTL true 0 0x0A [0xFF] 0x2A) = [0x80, 0x0A, 0x01, 0xFF, 0x2A] ∧
    encode (.recCL false 31 0x19 [0x0A, 0x0B] 0xC0DE) = [0x3F, 0x19, 0x02, 0x0A, 0x0B, 0xC0, 0xDE] ∧
    encode (.recCC false 3 0x10 [0xDE, 0xAD] 0xBEEF) = [0x63, 0x10, 0x02, 0xDE, 0xAD, 0xBE, 0xEF] := by decide

/-- Table words, first byte least significant: the header row, and a record row of eight bits. -/
theorem test_table_word :
    decodeTableWord 56 0x009A78563412D5 = some (.hdr 0x12345678 0x9A 0x00) ∧
    (decodeTableWord 8 0x20).map firstByteMatch = some 0x20 := by decide

/-! ### Steps -/

/-- V-H-5. -/
theorem test_hdr :
    seen (fun t => (t.devid, t.addr, t.pos, t.phase)) (step (startState [0xD5, 0x12, 0x34, 0x56, 0x78, 0x9A, 0xFF])) =
      some (some 0x12345678, some 0x9A, 7, .ctrl) := by decide

/-- V-H-8: the device ID cut short. -/
theorem test_hdr_short :
    seen (fun t => (t.devid, t.pos, t.phase, t.err)) (step (startState [0xD5, 0x12, 0x34])) =
      some (none, 3, .err, .unexpectedEnd) := by decide

/-- L2: a bank crossing. -/
theorem test_recTL :
    seen (fun t => (t.phase, t.pos, imgRead t (sramAt 0 31), imgRead t (sramAt 1 0), imgRead t (sramAt 1 2)))
        (step (afterHdr [0x1E, 0x00, 0x04, 0x11, 0x22, 0x33, 0x44, 0x2A])) =
      some (.done, 15, some 0x22, some 0x33, none) := by decide

/-- V-E-9: off the end of the SRAM-like region. -/
theorem test_recTL_badBank :
    seen (fun t => (t.err, t.pos, t.idx, t.sram)) (step (afterHdr [0x1E, 0x0A, 0x04, 0x01, 0x02, 0x03, 0x04, 0x2A])) =
      some (.badBank, 13, 2, [(350, 0x01), (351, 0x02)]) := by decide

/-- V-REC-2: another record is expected. -/
theorem test_recTC :
    seen (fun t => (t.phase, t.pos, t.ctrl, t.sram)) (step (afterHdr [0x40, 0x00, 0x04, 0xAA, 0xBB, 0xCC, 0xDD, 0x2A])) =
      some (.ctrl, 15, some 0x40, [(0, 0xAA), (1, 0xBB), (2, 0xCC), (3, 0xDD)]) := by decide

/-- S6: a wrong terminator. -/
theorem test_recTC_badTerminator :
    seen (fun t => (t.phase, t.err, t.pos, t.idx)) (step (afterHdr [0x40, 0x00, 0x02, 0xAA, 0xBB, 0x2B])) =
      some (.err, .badTerminator, 13, 2) := by decide

/-- V-REC-3. -/
theorem test_recCL :
    seen (fun t => (t.phase, t.crc, imgRead t (lutAt 0 3), imgRead t (lutAt 0 4)))
        (step (afterHdr [0x23, 0x10, 0x02, 0xDE, 0xAD, 0xBE, 0xEF])) =
      some (.done, some 0xBEEF, some 0xDE, some 0xAD) := by decide

/-- V-REC-3 cut inside its CRC: `CRC` is not written. -/
theorem test_recCL_short :
    seen (fun t => (t.err, t.crc, t.pos)) (step (afterHdr [0x23, 0x10, 0x02, 0xDE, 0xAD, 0xBE])) =
      some (.unexpectedEnd, none, 13) := by decide

/-- V-REC-4, before the missing record. -/
theorem test_recCC :
    seen (fun t => (t.phase, t.crc, t.pos)) (step (afterHdr [0x63, 0x10, 0x02, 0xDE, 0xAD, 0xBE, 0xEF])) =
      some (.ctrl, some 0xBEEF, 14) := by decide

/-- V-E-12: off the end of the LUT-like region. -/
theorem test_recCC_badBank :
    seen (fun t => (t.err, t.pos, imgRead t (lutAt 10 31))) (step (afterHdr [0x7F, 0x1A, 0x02, 0x55, 0x66, 0x12, 0x34])) =
      some (.badBank, 12, some 0x55) := by decide

/-- The status of L1a's end, of P4's end and of a completed run. -/
theorem test_status :
    status { State.reset with phase := .err, err := .unexpectedEnd } = 0x07 ∧
    status { State.reset with phase := .err, err := .badBank } = 0x13 ∧
    status { State.reset with phase := .done } = 0x02 := by decide

/-- Rows of the resolver table (section 2.2): the ends of the ranges, the gap, and no wrap at bank `FF`. -/
theorem test_locate :
    locate 0x02 286 = some (sramAt 10 30) ∧ locate 0x0A 32 = none ∧ locate 0x0F 31 = none ∧
    locate 0x0F 32 = some (lutAt 0 0) ∧ locate 0x1A 31 = some (lutAt 10 31) ∧ locate 0x1A 32 = none ∧
    locate 0xFF 286 = none := by decide

/-! ### Byte steps (trace of P2) -/

/-- P2 of `95_test_vectors.md`: `HDR`, `REC.CC`, `REC.TL`. -/
def p2 : List Byte :=
  [0xD5, 0x12, 0x34, 0x56, 0x78, 0x9A, 0xFF, 0x63, 0x10, 0x02, 0xDE, 0xAD, 0xBE, 0xEF, 0x1F, 0x1A, 0x01, 0x7E, 0x2A]

/-- The state of P2 after `k` byte steps. -/
def p2At (k : Nat) : State := (stateOf (byteRun k (startState p2))).getD State.reset

/-- P2's trace, one row per kind of step: what the table says stands after the step. -/
theorem test_p2_header :
    seen (fun t => (t.phase, t.acc)) (byteStep (p2At 3)) = some (.id3, 0x00123456) ∧
    seen (fun t => (t.phase, t.devid)) (byteStep (p2At 4)) = some (.addr, some 0x12345678) ∧
    seen (fun t => (t.phase, t.pos)) (byteStep (p2At 6)) = some (.ctrl, 7) := by decide

theorem test_p2_record :
    seen (fun t => (t.phase, t.count, t.idx)) (byteStep (p2At 9)) = some (.data, some 2, 0) ∧
    seen (fun t => (t.phase, t.idx, imgRead t (lutAt 0 4))) (byteStep (p2At 11)) = some (.crc0, 2, some 0xAD) ∧
    seen (fun t => (t.phase, t.crc)) (byteStep (p2At 13)) = some (.ctrl, some 0xBEEF) ∧
    seen (fun t => (t.phase, t.pos)) (byteStep (p2At 18)) = some (.done, 19) := by decide

/-! ### Witnesses: the hypotheses of every statement can be met -/

/-- The invariant holds in P2's states in the phases that the statements name: `P_SYNC`, `P_ID1`, `P_ID2`, `P_ID3`. -/
theorem witness_inv_header : Inv (p2At 0) ∧ Inv (p2At 2) ∧ Inv (p2At 3) ∧ Inv (p2At 4) := by
  refine ⟨?_, ?_, ?_, ?_⟩ <;>
    refine ⟨by decide, by decide, by decide, by decide, by decide, by decide, ?_, ?_, ?_, ?_, ?_⟩ <;>
    constructor <;> decide +kernel

/-- As before: `P_CTRL`, `P_DATA`, `P_CRC1`. -/
theorem witness_inv_record : Inv (p2At 7) ∧ Inv (p2At 10) ∧ Inv (p2At 13) := by
  refine ⟨?_, ?_, ?_⟩ <;>
    refine ⟨by decide, by decide, by decide, by decide, by decide, by decide, ?_, ?_, ?_, ?_, ?_⟩ <;>
    constructor <;> decide +kernel

/-- As before: `P_TERM`, `P_DONE`. -/
theorem witness_inv_end : Inv (p2At 18) ∧ Inv (p2At 19) := by
  refine ⟨?_, ?_⟩ <;>
    refine ⟨by decide, by decide, by decide, by decide, by decide, by decide, ?_, ?_, ?_, ?_, ?_⟩ <;>
    constructor <;> decide +kernel

theorem witness_StartEventErasesTheLastRun :
    ∃ s s' : State, (s.phase = .off ∨ s.phase = .done ∨ s.phase = .err) ∧ (s'.phase = .off ∨ s'.phase = .done ∨ s'.phase = .err) ∧
      s ≠ s' := ⟨p2At 19, { State.reset with phase := .off }, by decide, by decide, by decide⟩

theorem witness_NextReadsOneByteOrRaises :
    (∃ s t : State, s.err = .none ∧ s.pos < s.stream.length ∧ byteStep s = .next t) ∧
    (∃ s : State, s.phase.running = true ∧ s.stream.length ≤ s.pos) :=
  ⟨⟨p2At 18, p2At 19, by decide, by decide, rfl⟩, ⟨startState [], by decide, by decide⟩⟩

theorem witness_StatusViewLayout :
    ∃ s₀ s₁ s₂ s₃ s₄ : State, s₀.err = .none ∧ s₁.err = .unexpectedEnd ∧ s₂.err = .badSync ∧ s₃.err = .badTerminator ∧
      s₄.err = .badBank :=
  ⟨State.reset, raise .unexpectedEnd State.reset, raise .badSync State.reset, raise .badTerminator State.reset,
    raise .badBank State.reset, rfl, rfl, rfl, rfl, rfl⟩

theorem witness_TerminalPhasesKeepTheState :
    (∃ s : State, s.phase = .done ∧ s.pos < s.stream.length) ∧ (∃ s : State, s.phase = .err) ∧ (∃ s : State, s.phase = .off) ∧
    ∃ s : State, s.phase ≠ .done :=
  ⟨⟨{ p2At 19 with stream := p2 ++ [0xFF] }, by decide, by decide⟩, ⟨raise .badSync State.reset, rfl⟩,
    ⟨{ State.reset with phase := .off }, rfl⟩, ⟨State.reset, by decide⟩⟩

theorem witness_StepRunsTheDecodedFrame :
    (∃ (s : State) (c : Context) (i : Instr) (rest : List Byte),
      s.phase.context = some c ∧ decode c (s.stream.drop s.pos) = .ok (i, rest)) ∧
    ∃ s : State, s.phase.context = none :=
  ⟨⟨p2At 7, .laterFrame, .recCC false 3 0x10 [0xDE, 0xAD] 0xBEEF, [0x1F, 0x1A, 0x01, 0x7E, 0x2A], rfl, rfl⟩, p2At 10, rfl⟩

theorem witness_StepRunsTheEncodedFrame :
    ∃ (s : State) (i : Instr) (rest : List Byte),
      i.encodable = true ∧ s.phase.context = some (frameContext i) ∧ s.stream.drop s.pos = encode i ++ rest :=
  ⟨p2At 7, .recCC false 3 0x10 [0xDE, 0xAD] 0xBEEF, [0x1F, 0x1A, 0x01, 0x7E, 0x2A], by decide, by decide, by decide⟩

theorem witness_FetchWordIsRunNext : ∃ (nbits w : Nat) (i : Instr), decodeTableWord nbits w = some i :=
  ⟨56, 0x009A78563412D5, .hdr 0x12345678 0x9A 0x00, by decide⟩

theorem witness_DecodeOfEncodeIsTheFrame :
    (Instr.hdr 0x12345678 0x9A 0xFF).encodable = true ∧ (Instr.recTL true 31 0xFF [0x2A] 0x00).encodable = true ∧
    (Instr.recCC true 31 0xFF (List.replicate 256 0xD5) 0x2A2A).encodable = true := by decide +kernel

theorem witness_EncodeOfDecodeIsTheBytes :
    ∃ (c : Context) (bs : List Byte) (i : Instr) (rest : List Byte),
      decode c bs = .ok (i, rest) ∧ frameLength i ≤ bs.length :=
  ⟨.laterFrame, [0x00, 0x00, 0x01, 0x2A, 0x2A], .recTL false 0 0x00 [0x2A] 0x2A, [], rfl, by decide⟩

theorem witness_FrameLengthsInBytes :
    (∃ (i : Instr) (r : RecordFields), recordFields i = some r ∧ i.encodable = true ∧ r.payload.length = 1) ∧
    ∃ (i : Instr) (r : RecordFields), recordFields i = some r ∧ i.encodable = true ∧ r.payload.length = 256 :=
  ⟨⟨.recTL false 0 0 [0x2A] 0x2A, _, rfl, by decide, by decide⟩,
    ⟨.recCC false 0 0 (List.replicate 256 0x00) 0x0000, _, rfl, by decide +kernel, by decide +kernel⟩⟩

theorem witness_FirstByteSelectsTheForm :
    ∃ c₀ c₁ c₂ c₃ : Byte, c₀ &&& 0x60 = 0x00 ∧ c₁ &&& 0x60 = 0x20 ∧ c₂ &&& 0x60 = 0x40 ∧ c₃ &&& 0x60 = 0x60 :=
  ⟨0x9F, 0x3F, 0xDF, 0xFF, by decide⟩

theorem witness_HdrCompletes : ∃ s : State, s.phase = .sync ∧ s.pos + 7 = s.stream.length :=
  ⟨startState hdrBytes, by decide⟩

theorem witness_HeaderFrameRule :
    (∃ s : State, s.phase = .sync ∧ s.stream.length ≤ s.pos) ∧
    (∃ s : State, s.phase = .sync ∧ s.pos < s.stream.length ∧ s.stream.getD (s.pos + 0) 0 ≠ 0xD5) ∧
    (∃ s : State, s.phase = .sync ∧ s.pos < s.stream.length ∧ s.stream.getD (s.pos + 0) 0 = 0xD5 ∧
      s.stream.length + 1 = s.pos + 7) ∧
    (∃ s : State, s.phase = .sync ∧ s.stream.getD (s.pos + 0) 0 = 0xD5 ∧ s.pos + 7 = s.stream.length) :=
  ⟨⟨startState [], by decide⟩, ⟨startState [0x2A], by decide⟩, ⟨startState [0xD5, 0x00, 0x00, 0x00, 0x01, 0x02], by decide⟩,
    ⟨startState hdrBytes, by decide⟩⟩

theorem witness_HdrCutShort :
    (∃ s : State, s.phase = .sync ∧ s.pos = s.stream.length) ∧
    ∃ s : State, s.phase = .sync ∧ s.pos ≤ s.stream.length ∧ s.stream.length + 1 = s.pos + 7 :=
  ⟨⟨startState [], by decide⟩, ⟨startState [0xD5, 0x00, 0x00, 0x00, 0x01, 0x02], by decide⟩⟩

theorem witness_HdrFrame : ∃ (s t : State), exec (.hdr 0x00000001 0x02 0x00) s = .next t ∧ t.phase = .ctrl :=
  ⟨startState hdrBytes, _, rfl, by decide⟩

theorem witness_MultiByteOperandsAreBigEndian :
    ∃ (s : State) (c hi lo : Byte), s.phase = .crc0 ∧ s.ctrl = some c ∧ s.stream[s.pos]? = some hi ∧ s.stream[s.pos + 1]? = some lo :=
  ⟨p2At 12, 0x63, 0xBE, 0xEF, by decide⟩

/-- A record of one byte, and the longest record that fits (P3): 256 bytes from bank 2, offset 31. -/
theorem witness_TerminatorRecordsComplete :
    (∃ s : State, s.phase = .ctrl ∧ (∀ i, i < 1 → (payloadLoc 0x00 0 i).isSome = true) ∧ s.pos + 5 = s.stream.length) ∧
    ∃ s : State, s.phase = .ctrl ∧ (∀ i, i < 256 → (payloadLoc 0x02 31 i).isSome = true) ∧ s.pos + 260 = s.stream.length :=
  ⟨⟨afterHdr [0x00, 0x00, 0x01, 0x2A, 0x2A], by decide⟩,
    ⟨afterHdr ([0x1F, 0x02, 0x00] ++ List.replicate 256 0x55 ++ [0x2A]), by decide +kernel⟩⟩

theorem witness_CrcRecordsComplete :
    (∃ s : State, s.phase = .ctrl ∧ (∀ i, i < 1 → (payloadLoc 0x1A 31 i).isSome = true) ∧ s.pos + 6 = s.stream.length) ∧
    ∃ s : State, s.phase = .ctrl ∧ (∀ i, i < 256 → (payloadLoc 0x12 31 i).isSome = true) ∧ s.pos + 261 = s.stream.length :=
  ⟨⟨afterHdr [0x3F, 0x1A, 0x01, 0x99, 0x2A, 0x2A], by decide⟩,
    ⟨afterHdr ([0x3F, 0x12, 0x00] ++ List.replicate 256 0x55 ++ [0x00, 0x00]), by decide +kernel⟩⟩

/-- The first payload byte (V-E-10), and the last of 256 (V-E-14). -/
theorem witness_RecordStopsAtABadBank :
    (∃ (s : State) (i : Instr) (r : RecordFields), recordFields i = some r ∧ s.phase = .ctrl ∧ r.payload.length ≤ 256 ∧
      0 < r.payload.length ∧ PayloadValid r 0 ∧ payloadLoc r.bank r.off 0 = none ∧ s.pos + 3 + 0 < s.stream.length) ∧
    ∃ (s : State) (i : Instr) (r : RecordFields), recordFields i = some r ∧ s.phase = .ctrl ∧ r.payload.length ≤ 256 ∧
      255 < r.payload.length ∧ PayloadValid r 255 ∧ payloadLoc r.bank r.off 255 = none ∧ s.pos + 3 + 255 < s.stream.length :=
  ⟨⟨afterHdr [0x00, 0xFF, 0x01, 0x55, 0x2A], .recTL false 0 0xFF [0x55] 0x2A, _, rfl, by decide, by decide, by decide,
      fun _ h => absurd h (Nat.not_lt_zero _), by decide, by decide⟩,
    ⟨afterHdr ([0x01, 0x03, 0x00] ++ List.replicate 256 0x00 ++ [0x2A]), .recTL false 1 0x03 (List.replicate 256 0x00) 0x2A, _,
      rfl, by decide, by decide +kernel, by decide +kernel,
      (by decide +kernel : ∀ i, i < 255 → (payloadLoc 0x03 1 i).isSome = true), by decide, by decide +kernel⟩⟩

theorem witness_RecordStopsAtABadTerminator :
    ∃ (s : State) (x : Bool) (off : BitVec 5) (bank : Byte) (payload : List Byte) (term : Byte) (r : RecordFields),
      recordFields (.recTC x off bank payload term) = some r ∧ s.phase = .ctrl ∧ payload.length ≤ 256 ∧
      PayloadValid r payload.length ∧ term ≠ 0x2A ∧ s.pos + (4 + payload.length) = s.stream.length :=
  ⟨afterHdr [0x40, 0x00, 0x02, 0xAA, 0xBB, 0x2B], false, 0, 0x00, [0xAA, 0xBB], 0x2B, _, rfl, by decide, by decide,
    (by decide : ∀ i, i < 2 → (payloadLoc 0x00 0 i).isSome = true), by decide, by decide⟩

/-- The stream ends at the record's first byte, behind its control byte, behind its bank byte, in its payload, and one byte
before its end. -/
theorem witness_RecordCutShort :
    let i := Instr.recCL false 3 0x10 [0xDE, 0xAD] 0xBEEF
    ∃ r : RecordFields, recordFields i = some r ∧ r.payload.length ≤ 256 ∧ PayloadValid r r.payload.length ∧
      ∀ n, n ∈ [0, 1, 2, 4, 6] → ∃ s : State, s.phase = .ctrl ∧ s.pos ≤ s.stream.length ∧ s.stream.length = s.pos + n ∧
        s.stream.length < s.pos + frameLength i := by
  refine ⟨_, rfl, by decide, (by decide : ∀ i, i < 2 → (payloadLoc 0x10 3 i).isSome = true), fun n hn => ?_⟩
  refine ⟨afterHdr ((encode (.recCL false 3 0x10 [0xDE, 0xAD] 0xBEEF)).take n), rfl, ?_⟩
  revert n; decide

theorem witness_RecordFrame :
    ∃ (s t : State) (i : Instr) (r : RecordFields), recordFields i = some r ∧ r.payload.length ≤ 256 ∧ exec i s = .next t ∧
      ctrlUseCrc r.ctrl = false ∧ t.phase = .done :=
  ⟨afterHdr [0x00, 0x00, 0x01, 0x2A, 0x2A], _, .recTL false 0 0x00 [0x2A] 0x2A, _, rfl, by decide, rfl, by decide, by decide⟩

theorem witness_ReservedBitsHaveNoEffect :
    ∃ (s : State) (f : Bool → Instr), (f = fun x => .recTL x 0 0x00 [0x2A] 0x2A) ∧ s.phase = .ctrl ∧ s.pos < s.stream.length :=
  ⟨afterHdr [0x00, 0x00, 0x01, 0x2A, 0x2A], _, rfl, by decide, by decide⟩

theorem witness_CrcValueIsNotChecked : ∃ s : State, s.phase = .ctrl := ⟨p2At 7, by decide⟩

theorem witness_RecordsAreIndependent :
    ∃ (s : State) (i : Instr) (r : RecordFields), recordFields i = some r ∧ s.phase = .ctrl ∧ s.pos + 3 = s.stream.length :=
  ⟨afterHdr [0x00, 0x00, 0x01], .recTL false 0 0x00 [0x00] 0x00, _, rfl, by decide, by decide⟩

theorem witness_ModelStopsByName :
    (p2At 7).phase.context ≠ some (frameContext (.hdr 0 0 0)) ∧
    (∃ s : State, s.phase = .data ∧ s.ctrl = none ∧ s.pos < s.stream.length) ∧
    (∃ s : State, s.phase = .term ∧ s.ctrl = none ∧ s.pos < s.stream.length) ∧
    (∃ s : State, s.phase = .crc1 ∧ s.ctrl = none ∧ s.pos < s.stream.length) ∧
    (∃ s : State, s.phase = .data ∧ (s.bank = none ∨ s.count = none) ∧ s.pos < s.stream.length) ∧
    ∃ s : State, s.phase.running = true :=
  ⟨by decide, ⟨{ startState [0x00] with phase := .data }, by decide⟩, ⟨{ startState [0x00] with phase := .term }, by decide⟩,
    ⟨{ startState [0x00] with phase := .crc1 }, by decide⟩, ⟨{ startState [0x00] with phase := .data }, by decide⟩,
    ⟨p2At 18, by decide⟩⟩

theorem witness_ByteStepSync :
    (∃ s : State, s.phase = .sync ∧ s.stream[s.pos]? = some 0xD5) ∧
    ∃ (s : State) (v : Byte), s.phase = .sync ∧ s.stream[s.pos]? = some v ∧ v ≠ 0xD5 ∧ Inv s :=
  ⟨⟨p2At 0, by decide⟩, startState [0x2A], 0x2A, by decide, by decide, by decide, by
    refine ⟨by decide, by decide, by decide, by decide, by decide, by decide, ?_, ?_, ?_, ?_, ?_⟩ <;>
      constructor <;> decide +kernel⟩

theorem witness_ByteStepDeviceIdFold :
    ((p2At 1).phase = .id0 ∧ (p2At 1).stream[(p2At 1).pos]? = some 0x12) ∧
    ((p2At 2).phase = .id1 ∧ (p2At 2).stream[(p2At 2).pos]? = some 0x34 ∧ Inv (p2At 2)) ∧
    ((p2At 3).phase = .id2 ∧ (p2At 3).stream[(p2At 3).pos]? = some 0x56 ∧ Inv (p2At 3)) :=
  ⟨by decide, ⟨by decide, by decide, witness_inv_header.2.1⟩, ⟨by decide, by decide, witness_inv_header.2.2.1⟩⟩

theorem witness_ByteStepDeviceIdLatch :
    ((p2At 4).phase = .id3 ∧ (p2At 4).stream[(p2At 4).pos]? = some 0x78 ∧ Inv (p2At 4)) ∧
    ∃ s t : State, byteStep s = .next t ∧ s.phase ≠ .id3 :=
  ⟨⟨by decide, by decide, witness_inv_header.2.2.2⟩, ⟨p2At 18, p2At 19, rfl, by decide⟩⟩

theorem witness_ByteStepAddressAndReserved :
    ((p2At 5).phase = .addr ∧ (p2At 5).stream[(p2At 5).pos]? = some 0x9A) ∧
    ((p2At 6).phase = .rsvd ∧ (p2At 6).stream[(p2At 6).pos]? = some 0xFF) := by decide

/-- With the count bytes 02 and 00. -/
theorem witness_ByteStepRecordPrefix :
    ((p2At 7).phase = .ctrl ∧ (p2At 7).stream[(p2At 7).pos]? = some 0x63) ∧
    ((p2At 8).phase = .bank ∧ (p2At 8).stream[(p2At 8).pos]? = some 0x10) ∧
    ((p2At 9).phase = .count ∧ (p2At 9).stream[(p2At 9).pos]? = some 0x02) ∧
    ∃ s : State, s.phase = .count ∧ s.stream[s.pos]? = some 0x00 :=
  ⟨by decide, by decide, by decide, ⟨{ startState [0x00] with phase := .count }, by decide⟩⟩

/-- A payload byte without a location, one inside a payload, the last one before a CRC and the last one before a
terminator. -/
theorem witness_ByteStepPayload :
    (∃ (s : State) (v c b : Byte) (n : BitVec 9), s.phase = .data ∧ s.stream[s.pos]? = some v ∧ s.ctrl = some c ∧
      s.bank = some b ∧ s.count = some n ∧ locate b.toNat ((c.extractLsb' 0 5).toNat + s.idx.toNat) = none) ∧
    (∀ k, k ∈ [10, 11, 17] → (p2At k).phase = .data ∧ (p2At k).stream[(p2At k).pos]?.isSome = true ∧
      (p2At k).ctrl.isSome = true ∧ (p2At k).bank.isSome = true ∧ (p2At k).count.isSome = true ∧
      (locate ((p2At k).bank.getD 0).toNat
        ((((p2At k).ctrl.getD 0).extractLsb' 0 5).toNat + (p2At k).idx.toNat)).isSome = true) :=
  ⟨⟨{ startState [0x55] with phase := .data, ctrl := some 0x00, bank := some 0xFF, count := some 1 }, 0x55, 0x00, 0xFF, 1,
    by decide⟩, by decide⟩

theorem witness_ByteStepTerminator :
    ((p2At 18).phase = .term ∧ (p2At 18).stream[(p2At 18).pos]? = some 0x2A ∧ (p2At 18).ctrl = some 0x1F) ∧
    ∃ (s : State) (v c : Byte), s.phase = .term ∧ s.stream[s.pos]? = some v ∧ s.ctrl = some c ∧ v ≠ 0x2A ∧ Inv s :=
  ⟨by decide, { p2At 18 with stream := p2.take 18 ++ [0x2B] }, 0x2B, 0x1F, by decide, by decide, by decide, by decide, by
    refine ⟨by decide, by decide, by decide, by decide, by decide, by decide, ?_, ?_, ?_, ?_, ?_⟩ <;>
      constructor <;> decide +kernel⟩

theorem witness_ByteStepCrc :
    ((p2At 12).phase = .crc0 ∧ (p2At 12).stream[(p2At 12).pos]? = some 0xBE) ∧
    ((p2At 13).phase = .crc1 ∧ (p2At 13).stream[(p2At 13).pos]? = some 0xEF ∧ (p2At 13).ctrl = some 0x63 ∧ Inv (p2At 13)) ∧
    ∃ s t : State, byteStep s = .next t ∧ s.phase ≠ .crc1 :=
  ⟨by decide, ⟨by decide, by decide, by decide, witness_inv_record.2.2⟩, ⟨p2At 18, p2At 19, rfl, by decide⟩⟩

/-- Both trailers accepted, a wrong terminator, a trailer cut off, and a step that completes the decode. -/
theorem witness_ContinuationDecidesAfterTheTrailer :
    ((p2At 18).phase = .term ∧ (p2At 18).ctrl = some 0x1F ∧ byteStep (p2At 18) = .next (p2At 19) ∧
      (p2At 18).stream[(p2At 18).pos]? = some 0x2A ∧ (p2At 19).phase = .done) ∧
    ((p2At 13).phase = .crc1 ∧ (p2At 13).ctrl = some 0x63 ∧ byteStep (p2At 13) = .next (p2At 14) ∧
      (p2At 13).stream[(p2At 13).pos]? = some 0xEF) ∧
    (∃ s t : State, s.phase = .term ∧ s.ctrl = some 0x1F ∧ byteStep s = .next t ∧ s.stream[s.pos]? = some 0x2B) ∧
    ∃ s t : State, s.phase = .crc1 ∧ s.ctrl = some 0x63 ∧ byteStep s = .next t ∧ s.stream.length ≤ s.pos :=
  ⟨⟨by decide, by decide, rfl, by decide, by decide⟩, ⟨by decide, by decide, rfl, by decide⟩,
    ⟨{ p2At 18 with stream := p2.take 18 ++ [0x2B] }, _, by decide, by decide, rfl, by decide⟩,
    ⟨{ p2At 13 with stream := p2.take 13 }, _, by decide, by decide, rfl, by decide⟩⟩

theorem witness_EachErrorHasItsPhase :
    ∃ s t : State, byteStep s = .next t ∧ t.phase = .err ∧ t.err = .badTerminator ∧ s.err = .none :=
  ⟨{ p2At 18 with stream := p2.take 18 ++ [0x2B] }, _, rfl, by decide, by decide, by decide⟩

/-- The ends of every range of R116: `b'` = 00, 0A, 0B, 0F, 10, 1A, 1B, FF and 107. -/
theorem witness_ResolverClassification :
    ∀ q, q ∈ [(0x00, 0, 0), (0x02, 286, 10), (0x0A, 32, 11), (0x0F, 31, 15), (0x0F, 32, 16), (0x12, 286, 26), (0x13, 286, 27),
      (0xFF, 0, 255), (0xFF, 286, 263)] → q.1 ≤ 255 ∧ q.2.1 ≤ 286 ∧ q.2.2 = q.1 + q.2.1 / 32 := by decide

theorem witness_OffsetsCarryIntoBanks : ∃ r : Nat, r ≤ 31 := ⟨31, by decide⟩

theorem witness_ResolverNeedsNineBits : ∃ i : Nat, i ≤ 255 := ⟨255, by decide⟩

/-- The longest payload in the SRAM-like region. -/
theorem witness_PayloadStaysInOneRegion :
    (∀ i, i < 256 → (payloadLoc 0x02 31 i).isSome = true) ∧ payloadLoc 0x02 31 0 = some (sramAt 2 31) ∧
    payloadLoc 0x02 31 255 = some (sramAt 10 30) := by decide +kernel

/-- A step outside `P_DATA`; one in `P_DATA` with no byte left; an accepted payload byte, the last one of a record at the
highest location; a payload byte without a location. -/
theorem witness_ByteStepWritesAtMostOneCell :
    (byteStep (p2At 18) = .next (p2At 19) ∧ (p2At 18).phase ≠ .data) ∧
    (∃ s t : State, byteStep s = .next t ∧ s.phase = .data ∧ s.stream.length ≤ s.pos) ∧
    (byteStep (p2At 17) = .next (p2At 18) ∧ (p2At 17).phase = .data ∧ streamByte (p2At 17) (p2At 17).pos = some 0x7E ∧
      (p2At 17).ctrl = some 0x1F ∧ (p2At 17).bank = some 0x1A ∧
      payloadLoc 0x1A (ctrlOffset 0x1F) (p2At 17).idx.toNat = some (lutAt 10 31)) ∧
    ∃ s t : State, byteStep s = .next t ∧ s.phase = .data ∧ streamByte s s.pos = some 0x55 ∧ s.ctrl = some 0x00 ∧
      s.bank = some 0x0B ∧ payloadLoc 0x0B (ctrlOffset 0x00) s.idx.toNat = none :=
  ⟨⟨rfl, by decide⟩, ⟨{ p2At 17 with stream := p2.take 17 }, _, rfl, by decide, by decide⟩,
    ⟨rfl, by decide, by decide, by decide, by decide, by decide⟩,
    ⟨{ startState [0x55] with phase := .data, ctrl := some 0x00, bank := some 0x0B, count := some 1 }, _, rfl, by decide,
      by decide, by decide, by decide, by decide⟩⟩

theorem witness_WrittenCellsStayWritten :
    (∃ t, step (p2At 14) = .next t) ∧ byteStep (p2At 17) = .next (p2At 18) ∧ imgRead (p2At 14) (lutAt 0 3) ≠ none ∧
    imgRead (p2At 17) (lutAt 0 3) ≠ none := ⟨⟨_, rfl⟩, rfl, by decide, by decide⟩

theorem witness_ImageIsNeverRead : ∃ s t : State, step s = .next t := ⟨p2At 14, _, rfl⟩

theorem witness_HeaderFrameIsItsByteSteps : ∃ s : State, s.phase = .sync := ⟨p2At 0, by decide⟩

theorem witness_RecordFrameIsItsByteSteps : ∃ s : State, s.phase = .ctrl := ⟨p2At 7, by decide⟩

theorem witness_RunsOfBothGranularitiesEndAlike :
    (Inv (p2At 0) ∧ (p2At 0).phase = .sync) ∧ (Inv (p2At 7) ∧ (p2At 7).phase = .ctrl) :=
  ⟨⟨witness_inv_header.1, by decide⟩, ⟨witness_inv_record.1, by decide⟩⟩

theorem witness_StepKeepsTheInvariant : ∃ s t : State, Inv s ∧ step s = .next t := ⟨p2At 7, _, witness_inv_record.1, rfl⟩

theorem witness_ByteStepKeepsTheInvariant : Inv (p2At 10) ∧ byteStep (p2At 10) = .next (p2At 11) :=
  ⟨witness_inv_record.2.1, rfl⟩

theorem witness_HeaderLatchesMatchTheStream :
    HeaderFromStream (startState p2) ∧ byteStep (startState p2) = .next (p2At 1) ∧ ∃ t, step (startState p2) = .next t :=
  ⟨by constructor <;> simp [startState, State.reset, Phase.number], rfl, ⟨_, rfl⟩⟩

theorem witness_PositionNeverDecreases :
    (∃ s t : State, step s = .next t) ∧ (∃ s t : State, byteStep s = .next t ∧ s.phase.running = true ∧ s.pos < s.stream.length) ∧
    ∃ s t : State, byteStep s = .next t ∧ s.phase.running = true ∧ s.stream.length ≤ s.pos :=
  ⟨⟨p2At 7, _, rfl⟩, ⟨p2At 18, p2At 19, rfl, by decide, by decide⟩, ⟨startState [], _, rfl, by decide, by decide⟩⟩

theorem witness_RunsNeverStop : ∃ s : State, Inv s := ⟨p2At 18, witness_inv_end.1⟩

theorem witness_ConfigurationExactlyWhenDone :
    (Inv (p2At 18) ∧ (p2At 18).phase ≠ .done) ∧ Inv (p2At 19) ∧ (p2At 19).phase = .done ∧
    decodedConfiguration (p2At 19) = some ⟨0x12345678, 0x9A, [], [(3, 0xDE), (4, 0xAD), (351, 0x7E)]⟩ :=
  ⟨⟨witness_inv_end.1, by decide⟩, witness_inv_end.2, by decide, by decide⟩

theorem witness_EveryRunEnds : ∃ s : State, Inv s := ⟨p2At 0, witness_inv_header.1⟩

/-- Cut at the first byte, and one byte before the end. -/
theorem witness_TruncationGivesUnexpectedEnd :
    ∃ (S : List Byte) (k : Nat) (t : State), byteRun k (startState S) = .next t ∧ t.phase = .done ∧ 0 < t.pos ∧ 18 < t.pos :=
  ⟨p2, 19, p2At 19, rfl, by decide, by decide, by decide⟩

theorem witness_TrailingBytesAreNotRead :
    ∃ (S : List Byte) (k : Nat) (t : State), byteRun k (startState S) = .next t ∧ t.phase = .done :=
  ⟨p2, 19, p2At 19, rfl, by decide⟩

end Sys2Proof.Tests
end

namespace Sys2Proof.Machine

/-! ### A frame step is a run of byte steps (R127, R140) -/

/-- The byte at the cursor, as the decoder reads it. -/
def cursorByte (s : State) : Byte := fillAt (s.stream.drop s.pos) 0

theorem cursorByte_of_byte {s : State} {v : Byte} (h : s.stream[s.pos]? = some v) : cursorByte s = v :=
  fillAt_drop (j := 0) h

/-- Operand `j + 1` behind the cursor is operand `j` once the cursor has moved. -/
theorem fillAt_drop_advance (s : State) (j : Nat) :
    fillAt ((advance s).stream.drop (advance s).pos) j = fillAt (s.stream.drop s.pos) (j + 1) := by
  simp [fillAt, List.getD_eq_getElem?_getD, Nat.add_assoc, Nat.add_comm 1]

/-- Inside a frame, one byte step does `consume` and the update `f` of its phase; `K` is what the byte steps
after it do. -/
theorem byteFrame_consume {s : State} {p q : Phase} {f : State → State} {K : State → Flow} {k : Nat}
    (hr : p.running = true) (hq : q.midFrame = true)
    (hf : Consumed (cursorByte s) (setPhase p s) (setPhase q (f (advance s))))
    (hK : byteFrame k (setPhase q (f (advance s))) = .next (K (f (advance s))).state) :
    byteFrame (k + 1) (setPhase p s) = .next ((consume s).andThen fun u => K (f u)).state := by
  rcases next_cases s with ⟨v, hv, hl, -⟩ | ⟨hl, -⟩
  · rw [cursorByte_of_byte hv] at hf
    rw [byteFrame_of_mid (byteStep_of_consumed (s := setPhase p s) hv hf) hq, hK, consume_of_lt hl, going_andThen]
  · rw [byteFrame_of_end hr hl, consume_of_end hl, raised_andThen, raised_state]

/-- `HDR` from `P_RSVD` on (R126). -/
def headerFromRsvd (s : State) : Flow := (consume s).thenDo (setPhase .ctrl)

/-- `HDR` from `P_ADDR` on (R125). -/
def headerFromAddr (s : State) : Flow := (consume s).andThen fun u => headerFromRsvd (latchAddr (cursorByte s) u)

/-- `HDR` from `P_ID3` on (R124). -/
def headerFromId3 (s : State) : Flow :=
  (consume s).andThen fun u => headerFromAddr (latchDevid (foldByte s.acc (cursorByte s)) u)

/-- `HDR` from `P_ID2` on (R123). -/
def headerFromId2 (s : State) : Flow :=
  (consume s).andThen fun u => headerFromId3 (setAcc (foldByte s.acc (cursorByte s)) u)

/-- `HDR` from `P_ID1` on (R123). -/
def headerFromId1 (s : State) : Flow :=
  (consume s).andThen fun u => headerFromId2 (setAcc (foldByte s.acc (cursorByte s)) u)

/-- `HDR` from `P_ID0` on (R122). -/
def headerFromId0 (s : State) : Flow :=
  (consume s).andThen fun u => headerFromId1 (setAcc ((cursorByte s).setWidth 32) u)

theorem byteFrame_rsvd (s : State) (k : Nat) : byteFrame k (setPhase .rsvd s) = .next (headerFromRsvd s).state := by
  rcases next_cases s with ⟨v, hv, hl, -⟩ | ⟨hl, -⟩
  · rw [byteFrame_of_boundary (byteStep_of_consumed (s := setPhase .rsvd s) hv (.rsvd rfl)) rfl k, headerFromRsvd,
      consume_of_lt hl]
    rfl
  · rw [byteFrame_of_end rfl hl, headerFromRsvd, consume_of_end hl]; rfl

theorem byteFrame_addr (s : State) : byteFrame 1 (setPhase .addr s) = .next (headerFromAddr s).state :=
  byteFrame_consume (f := latchAddr _) rfl rfl (.addr rfl) (byteFrame_rsvd _ _)

theorem byteFrame_id3 (s : State) : byteFrame 2 (setPhase .id3 s) = .next (headerFromId3 s).state :=
  byteFrame_consume (f := latchDevid _) rfl rfl (.id3 rfl) (byteFrame_addr _)

theorem byteFrame_id2 (s : State) : byteFrame 3 (setPhase .id2 s) = .next (headerFromId2 s).state :=
  byteFrame_consume (f := setAcc _) rfl rfl (.id2 rfl) (byteFrame_id3 _)

theorem byteFrame_id1 (s : State) : byteFrame 4 (setPhase .id1 s) = .next (headerFromId1 s).state :=
  byteFrame_consume (f := setAcc _) rfl rfl (.id1 rfl) (byteFrame_id2 _)

theorem byteFrame_id0 (s : State) : byteFrame 5 (setPhase .id0 s) = .next (headerFromId0 s).state :=
  byteFrame_consume (f := setAcc _) rfl rfl (.id0 rfl) (byteFrame_id1 _)

/-- After `consume` the run goes on from the advanced state only. -/
theorem consume_andThen_congr {s : State} {k k' : State → Flow} (h : k (advance s) = k' (advance s)) :
    (consume s).andThen k = (consume s).andThen k' := by
  refine andThen_congr fun u hu => ?_
  rcases consume_cases s with ⟨-, e⟩ | ⟨-, e⟩ <;> rw [e] at hu <;> cases hu
  exact h

/-- The operands of a header, read at the cursor in one go, are those that the phases read one by one (R120). -/
theorem headerFromId0_eq (s : State) :
    headerFromId0 s =
      (((nextN latchDevid 0 [fillAt (s.stream.drop s.pos) 0, fillAt (s.stream.drop s.pos) 1,
          fillAt (s.stream.drop s.pos) 2, fillAt (s.stream.drop s.pos) 3] s).andThen fun s' =>
        (consume s').thenDo (latchAddr (fillAt (s.stream.drop s.pos) 4))).andThen
      consume).thenDo (setPhase .ctrl) := by
  simp only [headerFromId0, headerFromId1, headerFromId2, headerFromId3, headerFromAddr, headerFromRsvd,
    nextN_more, nextN_one, foldByte_zero, Flow.thenDo, andThen_assoc, going_andThen]
  iterate 4
    refine consume_andThen_congr ?_
    simp only [cursorByte, setAcc_acc, setAcc_pos, setAcc_stream, latchDevid_pos, latchDevid_stream,
      fillAt_drop_advance]

/-- `HDR` on the operands that stand behind its first byte. -/
theorem exec_header_at_cursor {s : State} {b : Byte} {bs : List Byte} (hp : s.phase = .sync)
    (h : s.stream.drop s.pos = b :: bs) :
    exec (decodeHeader bs).1 s = .next ((consume s).andThen headerFromId0).state := by
  have hop : ∀ j, fillAt ((advance s).stream.drop (advance s).pos) j = fillAt bs j := fun j => by
    rw [fillAt_drop_advance, h]; rfl
  obtain ⟨h3, h2, h1, h0⟩ := byteOf_bigEndian32 (fillAt bs 0) (fillAt bs 1) (fillAt bs 2) (fillAt bs 3)
  simp only [exec, decodeHeader, execHdr]
  rw [inContext_of_eq ((context_firstFrame_iff _).2 hp), h3, h2, h1, h0]
  congr 2
  simp only [Flow.thenDo, andThen_assoc]
  refine consume_andThen_congr ?_
  simp only [headerFromId0_eq, hop, Flow.thenDo, andThen_assoc]

/-- A step where a frame begins executes the frame that the decoder answers. -/
theorem step_of_frame {s : State} {c : Context} {i : Instr} {bs : List Byte} (hc : s.phase.context = some c)
    (h : decode c (s.stream.drop s.pos) = .ok (i, bs)) : step s = exec i s := by
  rw [step, hc]; simp only [fetchFrame, h]

/-- A step where the decoder rejects the first byte takes the error (R161, R162). -/
theorem step_of_reject {s : State} {c : Context} {r : Reject} (hc : s.phase.context = some c)
    (h : decode c (s.stream.drop s.pos) = .error r) : step s = .next (rejectFrame r s) := by
  rw [step, hc]; simp only [fetchFrame, h]

/-- The bytes at the cursor begin with the byte that `next()` answers. -/
theorem drop_pos_of_byte {s : State} {v : Byte} (h : s.stream[s.pos]? = some v) :
    s.stream.drop s.pos = v :: s.stream.drop (s.pos + 1) := by
  obtain ⟨hl, rfl⟩ := List.getElem?_eq_some_iff.1 h
  exact List.drop_eq_getElem_cons hl

/-- At the start of the stream the frame step is the byte steps of the header (R127). -/
theorem step_eq_byteFrame_of_sync {s : State} (hp : s.phase = .sync) : step s = byteFrame 6 s := by
  have hc : s.phase.context = some .firstFrame := (context_firstFrame_iff _).2 hp
  rcases next_cases s with ⟨v, hv, hl, -⟩ | ⟨hl, -⟩
  · have hd := drop_pos_of_byte hv
    by_cases hs : v = Config.SYNC
    · rw [step_of_frame hc (by rw [hd, decode, if_pos hs]), exec_header_at_cursor hp hd, consume_of_lt hl,
        going_andThen, byteFrame_of_mid (byteStep_of_consumed hv (.sync hp hs)) rfl, byteFrame_id0]
    · rw [step_of_reject hc (by rw [hd, decode, if_neg hs]),
        byteFrame_of_boundary (byteStep_of_consumed hv (.badSync hp hs)) rfl]
      rfl
  · rw [step_of_reject hc (by rw [List.drop_eq_nil_of_le hl, decode]),
      byteFrame_of_boundary (byteStep_of_end (by rw [hp]; rfl) hl) rfl]
    rfl

/-! ### Records -/

/-- The frame that the decoder answers for a record has these fields (R72, R73). -/
theorem recordFields_decodeRecord (c : Byte) (bs : List Byte) :
    recordFields (decodeRecord c bs).1 =
      some ⟨c, ctrlOffset c, fillAt bs 0, takeFill (payloadLength (fillAt bs 1)) (bs.drop 2)⟩ := by
  have hf := ctrlByte_fields c
  unfold decodeRecord
  cases hu : ctrlUseCrc c <;> cases hk : ctrlContinues c <;> rw [hu, hk] at hf <;> simp only [recordFields, hf]

/-- Where the trailer of that frame stands at the cursor, its procedure is the one that the control byte selects
(R77). -/
theorem trailerOf_decodeRecord {c : Byte} {bs : List Byte} {u : State}
    (h : u.stream.drop u.pos = bs.drop (2 + payloadLength (fillAt bs 1))) :
    trailerOf (decodeRecord c bs).1 u = trailerAt c u := by
  unfold decodeRecord
  cases hu : ctrlUseCrc c <;> cases hk : ctrlContinues c <;> simp [trailerOf, trailerAt, hu, h]

/-- The payload of a record with the control byte `c`, the bank `b` and `len` bytes from the cursor on, its trailer and
its final phase (R131, R156). -/
def recordFromData (c b : Byte) (len : Nat) (s : State) : Flow :=
  ((payloadLoop b (ctrlOffset c) (takeFill len (s.stream.drop s.pos)) s).andThen (trailerAt c)).thenDo
    (setPhase (nextPhase c))

/-- Such a record from `P_COUNT` on (R138). -/
def recordFromCount (c b : Byte) (s : State) : Flow :=
  (consume s).andThen fun u =>
    recordFromData c b (payloadLength (cursorByte s)) (latchCount (payloadLength (cursorByte s)) u)

/-- Such a record from `P_BANK` on (R137). -/
def recordFromBank (c : Byte) (s : State) : Flow :=
  (consume s).andThen fun u => recordFromCount c (cursorByte s) (latchBank (cursorByte s) u)

/-- A record from its control byte on (R136). -/
def recordFromCtrl (s : State) : Flow :=
  (consume s).andThen fun u => recordFromBank (cursorByte s) (latchCtrl (cursorByte s) u)

theorem byteFrame_payload {s : State} {c b v : Byte} (hc : s.ctrl = some c) (hb : s.bank = some b)
    (hn : s.count = some (BitVec.ofNat 9 (payloadLength v))) (hi : s.idx = 0) :
    byteFrame 257 (setPhase .data s) = .next (recordFromData c b (payloadLength v) s).state := by
  have h1 := payloadLength_pos v
  have h2 := payloadLength_le v
  have hm : payloadLength v - 1 + 1 = payloadLength v := by omega
  have hidx : s.idx.toNat + (payloadLength v - 1 + 1) = (BitVec.ofNat 9 (payloadLength v)).toNat := by
    rw [hi, BitVec.toNat_ofNat, hm, Nat.mod_eq_of_lt (by omega)]; exact Nat.zero_add _
  have hdata := byteFrame_data (payloadLength v - 1) s (256 - payloadLength v) hc hb hn hidx
  rwa [show payloadLength v - 1 + 2 + (256 - payloadLength v) = 257 by omega, hm] at hdata

theorem byteFrame_count {s : State} {c b : Byte} (hc : s.ctrl = some c) (hb : s.bank = some b) :
    byteFrame 258 (setPhase .count s) = .next (recordFromCount c b s).state :=
  byteFrame_consume (f := latchCount _) rfl rfl (.count rfl) (byteFrame_payload hc hb rfl rfl)

theorem byteFrame_bank {s : State} {c : Byte} (hc : s.ctrl = some c) :
    byteFrame 259 (setPhase .bank s) = .next (recordFromBank c s).state :=
  byteFrame_consume (f := latchBank _) rfl rfl (.bank rfl) (byteFrame_count hc rfl)

theorem byteFrame_ctrl (s : State) : byteFrame 260 (setPhase .ctrl s) = .next (recordFromCtrl s).state :=
  byteFrame_consume (f := latchCtrl _) rfl rfl (.ctrl rfl) (byteFrame_bank rfl)

/-- A record frame on the operands that stand behind its control byte `c` (R132). -/
theorem exec_record_at_cursor {s : State} {c : Byte} {bs : List Byte} (hp : s.phase = .ctrl)
    (h : s.stream.drop s.pos = c :: bs) :
    exec (decodeRecord c bs).1 s = .next (recordFromCtrl s).state := by
  have hop : ∀ j, fillAt (s.stream.drop s.pos) (j + 1) = fillAt bs j := fun j => by rw [h]; rfl
  have hc : cursorByte s = c := by rw [cursorByte, h]; rfl
  have hdrop : ∀ j, s.stream.drop (s.pos + 1 + j) = bs.drop j := fun j => by
    rw [Nat.add_assoc, ← List.drop_drop, h, Nat.add_comm, List.drop_succ_cons]
  rw [exec_record_next (recordFields_decodeRecord c bs) hp, recordFromCtrl, hc]
  simp only [recordBody, recordHead, Flow.thenDo, andThen_assoc, going_andThen, takeFill_length]
  congr 2
  refine consume_andThen_congr ?_
  simp only [recordFromBank, cursorByte, latchCtrl_pos, latchCtrl_stream, fillAt_drop_advance, hop]
  refine consume_andThen_congr ?_
  simp only [recordFromCount, cursorByte, latchCtrl_pos, latchCtrl_stream, latchBank_pos, latchBank_stream,
    fillAt_drop_advance, hop]
  refine consume_andThen_congr ?_
  have hpl : takeFill (payloadLength (fillAt bs 1)) (s.stream.drop (s.pos + 1 + 1 + 1)) =
      takeFill (payloadLength (fillAt bs 1)) (bs.drop 2) := by rw [Nat.add_assoc, hdrop]
  simp only [recordFromData, Flow.thenDo, andThen_assoc, latchCount_pos, latchCount_stream, latchBank_pos,
    latchBank_stream, latchCtrl_pos, latchCtrl_stream, advance_pos, advance_stream, hpl]
  refine andThen_congr fun u hu => ?_
  obtain ⟨hpos, hstream⟩ := payloadLoop_going_pos hu
  have hbehind : u.pos = s.pos + 1 + (2 + payloadLength (fillAt bs 1)) := by
    rw [hpos, takeFill_length]; simp; omega
  rw [trailerOf_decodeRecord (by rw [hbehind, ← hdrop, hstream]; rfl)]

/-- Where a record begins the frame step is the byte steps of the record (R140). -/
theorem step_eq_byteFrame_of_ctrl {s : State} (hp : s.phase = .ctrl) : step s = byteFrame 260 s := by
  have hc : s.phase.context = some .laterFrame := (context_laterFrame_iff _).2 hp
  rcases next_cases s with ⟨v, hv, -, -⟩ | ⟨hl, -⟩
  · have hd := drop_pos_of_byte hv
    have hs : setPhase .ctrl s = s := by rw [← hp]; rfl
    rw [step_of_frame hc (by rw [hd, decode]), exec_record_at_cursor hp hd, ← byteFrame_ctrl, hs]
  · rw [step_of_reject hc (by rw [List.drop_eq_nil_of_le hl, decode]),
      byteFrame_of_boundary (byteStep_of_end (by rw [hp]; rfl) hl) rfl]
    rfl

theorem step_of_no_context {s : State} (hc : s.phase.context = none) : step s = byteStep s := by rw [step, hc]

/-- A step of either granularity is byte steps taken until a frame boundary, or one byte step. -/
theorem step_eq_byteFrame (s : State) : ∃ k, step s = byteFrame k s := by
  cases hc : s.phase.context with
  | none => exact ⟨0, step_of_no_context hc⟩
  | some c =>
    cases c with
    | firstFrame => exact ⟨6, step_eq_byteFrame_of_sync ((context_firstFrame_iff _).1 hc)⟩
    | laterFrame => exact ⟨260, step_eq_byteFrame_of_ctrl ((context_laterFrame_iff _).1 hc)⟩

/-- What every byte step keeps, byte steps taken until a frame boundary keep. -/
theorem byteFrame_keeps {P : State → Prop} (hb : ∀ s t, P s → byteStep s = .next t → P t) (k : Nat) :
    ∀ s t, P s → byteFrame k s = .next t → P t := fun s t hs h => by
  obtain ⟨t', ht', hR⟩ := byteFrame_sim (R := fun a b => a = b ∧ P a) (fun _ _ h => congrArg State.phase h.1)
    (fun a b t ⟨hab, ha⟩ ht => ⟨t, hab ▸ ht, rfl, hb a t ha ht⟩) k s s t ⟨rfl, hs⟩ h
  exact hR.2

/-- An invariant of the byte steps is an invariant of the steps. -/
theorem step_keeps {P : State → Prop} (hb : ∀ s t, P s → byteStep s = .next t → P t) {s t : State} (hs : P s)
    (h : step s = .next t) : P t := by
  obtain ⟨k, hk⟩ := step_eq_byteFrame s
  exact byteFrame_keeps hb k s t hs (hk ▸ h)

/-- Where an invariant of the byte steps rules out that one stops, no step stops. -/
theorem step_total {P : State → Prop} (hb : ∀ s t, P s → byteStep s = .next t → P t)
    (ht : ∀ s, P s → ∃ t, byteStep s = .next t) {s : State} (hs : P s) : ∃ t, step s = .next t := by
  obtain ⟨k, hk⟩ := step_eq_byteFrame s
  rw [hk]
  clear hk
  induction k generalizing s with
  | zero => exact ht s hs
  | succ k ih =>
    obtain ⟨u, hu⟩ := ht s hs
    by_cases hm : u.phase.midFrame = true
    · rw [byteFrame_of_mid hu hm]; exact ih (hb s u hs hu)
    · exact ⟨u, byteFrame_of_boundary hu (by simpa using hm) _⟩

/-! ### What a byte step that has read a byte does to a field, over all its rules -/

theorem nextPhase_cases (c : Byte) :
    (ctrlContinues c = true ∧ nextPhase c = .ctrl) ∨ (ctrlContinues c = false ∧ nextPhase c = .done) := by
  unfold nextPhase; split <;> simp_all

theorem trailerPhase_cases (c : Byte) :
    (ctrlUseCrc c = true ∧ trailerPhase c = .crc0) ∨ (ctrlUseCrc c = false ∧ trailerPhase c = .term) := by
  unfold trailerPhase; split <;> simp_all

/-- The phase after a stored payload byte: the payload goes on, or the trailer that `USE_CRC` selects begins (R139). -/
theorem phase_after_stored (i n : BitVec 9) (c : Byte) :
    (i ≠ n ∧ (if i = n then trailerPhase c else .data) = Phase.data) ∨
    (i = n ∧ ctrlUseCrc c = true ∧ (if i = n then trailerPhase c else .data) = Phase.crc0) ∨
    (i = n ∧ ctrlUseCrc c = false ∧ (if i = n then trailerPhase c else .data) = Phase.term) := by
  by_cases h : i = n
  · rw [if_pos h]
    rcases trailerPhase_cases c with ⟨hu, e⟩ | ⟨hu, e⟩
    · exact .inr (.inl ⟨h, hu, e⟩)
    · exact .inr (.inr ⟨h, hu, e⟩)
  · exact .inl ⟨h, if_neg h⟩

/-- Phases are told apart by their numbers (R13). -/
theorem Phase.number_injective : Function.Injective Phase.number := by
  have hlist : ∀ p : Phase, [sync, id0, id1, id2, id3, addr, rsvd, ctrl, bank, count, data, term, crc0, crc1, done,
      err, off][p.number]? = some p := fun p => by cases p <;> rfl
  intro p q h
  exact Option.some.inj ((hlist p).symm.trans (h ▸ hlist q))

/-- How a byte read moves the phase from `p` to `q`, by their numbers: an error is taken, or the phase is the next one,
or one of a record's payload or trailer is followed by one of these, by the next record or by the end. -/
def PhaseMoves (p q : Phase) : Prop :=
  q.number = 15 ∨ q.number = p.number + 1 ∨ (10 ≤ p.number ∧ 7 ≤ q.number ∧ q.number ≤ 14)

theorem toNat_setWidth32 (v : Byte) : (v.setWidth 32).toNat = v.toNat := by
  have := v.isLt
  rw [BitVec.toNat_setWidth]; omega

section
variable {v : Byte} {s t : State}

theorem Consumed.running (h : Consumed v s t) : s.phase.running = true := by
  cases h <;> simp [Phase.running, Phase.number, *]

theorem Consumed.phaseMoves (h : Consumed v s t) : PhaseMoves s.phase t.phase := by
  unfold PhaseMoves
  cases h
  case stored c b n l hp hc hb hn hl =>
    rcases phase_after_stored (s.idx + 1) n c with ⟨-, e⟩ | ⟨-, -, e⟩ | ⟨-, -, e⟩ <;>
      rw [setPhase_phase, e, hp] <;> decide
  case term c hp hc hv => rcases nextPhase_cases c with ⟨-, e⟩ | ⟨-, e⟩ <;> rw [setPhase_phase, e, hp] <;> decide
  case crc1 c hp hc => rcases nextPhase_cases c with ⟨-, e⟩ | ⟨-, e⟩ <;> rw [setPhase_phase, e, hp] <;> decide
  case badSync => exact .inl rfl
  case badBank => exact .inl rfl
  case badTerminator => exact .inl rfl
  all_goals exact .inr (.inl (by simp [Phase.number, *]))

/-- While the header is read, the position is the number of the phase (R31 c). -/
theorem Consumed.headerPos (h : Consumed v s t) (hs : s.phase.number ≤ 6 → s.pos = s.phase.number)
    (ht : t.phase.number ≤ 6) : t.pos = t.phase.number := by
  have hn : t.phase.number = s.phase.number + 1 := by
    have hn := h.phaseMoves
    unfold PhaseMoves at hn
    omega
  rw [h.cursor.1, hn, hs (by omega)]

/-- How the accumulator comes to hold what it holds in the phases that read it (R122, R123, R154). -/
structure AccFold (v : Byte) (s t : State) : Prop where
  id1 : t.phase = .id1 → s.phase = .id0 ∧ t.acc = v.setWidth 32
  id2 : t.phase = .id2 → s.phase = .id1 ∧ t.acc = foldByte s.acc v
  id3 : t.phase = .id3 → s.phase = .id2 ∧ t.acc = foldByte s.acc v
  crc1 : t.phase = .crc1 → s.phase = .crc0 ∧ t.acc = v.setWidth 32

theorem Consumed.accFold (h : Consumed v s t) : AccFold v s t := by
  cases h
  case stored c b n l hp hc hb hn hl =>
    rcases phase_after_stored (s.idx + 1) n c with ⟨-, e⟩ | ⟨-, -, e⟩ | ⟨-, -, e⟩ <;> rw [e] <;>
      constructor <;> rintro ⟨⟩
  case term c hp hc hv => rcases nextPhase_cases c with ⟨-, e⟩ | ⟨-, e⟩ <;> rw [e] <;> constructor <;> rintro ⟨⟩
  case crc1 c hp hc => rcases nextPhase_cases c with ⟨-, e⟩ | ⟨-, e⟩ <;> rw [e] <;> constructor <;> rintro ⟨⟩
  all_goals constructor <;> rintro ⟨⟩ <;> exact ⟨‹_›, rfl⟩

/-- The SYNC byte is passed, or the run fails (R121). -/
theorem Consumed.sync_or_err (h : Consumed v s t) (hp : s.phase = .sync) : v = Config.SYNC ∨ t.phase = .err := by
  cases h
  case sync _ hv => exact .inl hv
  case badSync => exact .inr rfl
  all_goals simp_all

/-- `DEVID` is written in `P_ID3` only (R124). -/
theorem Consumed.devid_eq (h : Consumed v s t) :
    t.devid = if s.phase = .id3 then some (foldByte s.acc v) else s.devid := by
  cases h <;> simp [*]

/-- `ADDR` is written in `P_ADDR` only (R125). -/
theorem Consumed.addr_eq (h : Consumed v s t) : t.addr = if s.phase = .addr then some v else s.addr := by
  cases h <;> simp [*]

/-- `CTRL` is written in `P_CTRL` only (R136). -/
theorem Consumed.ctrl_eq (h : Consumed v s t) : t.ctrl = if s.phase = .ctrl then some v else s.ctrl := by
  cases h <;> simp [*]

/-- `BANK` is written in `P_BANK` only (R137). -/
theorem Consumed.bank_eq (h : Consumed v s t) : t.bank = if s.phase = .bank then some v else s.bank := by
  cases h <;> simp [*]

/-- `COUNT` is written in `P_COUNT` only (R138). -/
theorem Consumed.count_eq (h : Consumed v s t) :
    t.count = if s.phase = .count then some (BitVec.ofNat 9 (payloadLength v)) else s.count := by
  cases h <;> simp [*]

end

/-! ### The header's latches and the stream -/

section
variable {v : Byte} {s t : State}

/-- An error keeps what was read of the header. -/
theorem HeaderFromStream.raised (h : HeaderFromStream s) (e : Err) : HeaderFromStream (raise e s) where
  headerPos := fun hn => absurd hn (show ¬ 15 ≤ 6 by decide)
  sync := fun ⟨_, hn⟩ => absurd hn (show ¬ 15 ≤ 14 by decide)
  id1 := nofun
  id2 := nofun
  id3 := nofun
  devid := h.devid
  addr := h.addr

/-- The SYNC byte once it has been passed (R121). -/
theorem Consumed.syncByte (h : Consumed v s t) (hi : HeaderFromStream s) (hv : s.stream[s.pos]? = some v)
    (ht : t.phase.number ≤ 14) : streamByte s 0 = some Config.SYNC := by
  have hr : s.phase.number ≤ 13 := of_decide_eq_true h.running
  by_cases h0 : s.phase.number = 0
  · have hp : s.phase = .sync := Phase.number_injective h0
    rcases h.sync_or_err hp with rfl | e
    · rw [streamByte, ← h0, ← hi.headerPos (by omega), hv]
    · rw [e] at ht; contradiction
  · exact hi.sync ⟨by omega, by omega⟩

theorem Consumed.headerFromStream (h : Consumed v s t) (hv : s.stream[s.pos]? = some v) (hi : HeaderFromStream s) :
    HeaderFromStream t := by
  have hst : ∀ k, streamByte t k = streamByte s k := fun k => by rw [streamByte, h.cursor.2]; rfl
  have hread : ∀ {p : Phase}, s.phase = p → p.number ≤ 6 → streamByte s p.number = some v := fun hp hn => by
    subst hp; rw [streamByte, ← hi.headerPos hn, hv]
  have hf := h.accFold
  refine ⟨h.headerPos hi.headerPos, fun ⟨_, h14⟩ => ?_, fun hp => ?_, fun hp => ?_, fun hp => ?_, fun d hd => ?_,
    fun a ha => ?_⟩
  all_goals simp only [hst]
  · exact h.syncByte hi hv h14
  · obtain ⟨hp, e⟩ := hf.id1 hp
    exact ⟨v, hread hp (by decide), by rw [e, toNat_setWidth32]⟩
  · obtain ⟨hp, e⟩ := hf.id2 hp
    obtain ⟨b, hb, hacc⟩ := hi.id1 hp
    have := b.isLt
    exact ⟨b, v, hb, hread hp (by decide), by rw [e, foldByte_toNat (by omega), hacc]⟩
  · obtain ⟨hp, e⟩ := hf.id3 hp
    obtain ⟨b, c, hb, hc, hacc⟩ := hi.id2 hp
    have := b.isLt; have := c.isLt
    exact ⟨b, c, v, hb, hc, hread hp (by decide), by rw [e, foldByte_toNat (by omega), hacc]; omega⟩
  · rw [h.devid_eq] at hd
    split at hd
    · rename_i hp
      obtain ⟨b, c, d', hb, hc, hd', hacc⟩ := hi.id3 hp
      obtain rfl : foldByte s.acc v = d := Option.some.inj hd
      have := b.isLt; have := c.isLt; have := d'.isLt
      exact ⟨b, c, d', v, hb, hc, hd', hread hp (by decide), by rw [foldByte_toNat (by omega), hacc]; omega⟩
    · exact hi.devid d hd
  · rw [h.addr_eq] at ha
    split at ha
    · rename_i hp
      obtain rfl : v = a := Option.some.inj ha
      exact hread hp (by decide)
    · exact hi.addr a ha

theorem byteStep_keeps_headerFromStream (hi : HeaderFromStream s) (h : byteStep s = .next t) : HeaderFromStream t := by
  rcases byteStep_next h with ⟨-, rfl⟩ | ⟨-, -, rfl⟩ | ⟨v, hv, -, hc⟩
  · exact hi
  · exact hi.raised _
  · exact hc.headerFromStream hv hi

end

/-- Settles O53: every byte step keeps it, and a frame step is byte steps. -/
theorem headerLatchesMatchTheStream : Obligations.HeaderLatchesMatchTheStream := by
  unfold Obligations.HeaderLatchesMatchTheStream
  rintro s t hi (h | h)
  · exact step_keeps (fun _ _ => byteStep_keeps_headerFromStream) hi h
  · exact byteStep_keeps_headerFromStream hi h

/-! ### The invariant of a run, part by part -/

/-- A latch that the phase `p` writes is still empty in an early phase after a byte step (R31 d). -/
theorem latch_empty_before {α : Type} {a b : Option α} {x : α} {p ps pt : Phase} {k : Nat}
    (hn : PhaseMoves ps pt) (hb : b = if ps = p then some x else a) (ha : ps.number ≤ k → a = none)
    (hp : k ≤ p.number) (hk : k ≤ 6) (ht : pt.number ≤ k) : b = none := by
  unfold PhaseMoves at hn
  have hne : ps ≠ p := fun h => by rw [h] at hn; omega
  rw [hb, if_neg hne]
  exact ha (by omega)

/-- A latch that the phase `p` writes, of the header or of a record's first three bytes, is filled from the next phase
on (R31 d). -/
theorem latch_filled_after {α : Type} {a b : Option α} {x : α} {p ps pt : Phase} {k : Nat}
    (hn : PhaseMoves ps pt) (hb : b = if ps = p then some x else a)
    (ha : k ≤ ps.number → ps.number ≤ 14 → a.isSome) (hp : k = p.number + 1) (hk : k ≤ 10) (hs : ps.number ≤ 14)
    (h1 : k ≤ pt.number) (h2 : pt.number ≤ 14) : b.isSome := by
  unfold PhaseMoves at hn
  rw [hb]
  split
  · rfl
  · rename_i hne
    have : ps.number ≠ p.number := fun h => hne (Phase.number_injective h)
    exact ha (by omega) hs

section
variable {v : Byte} {s t : State}

theorem Consumed.latchesByPhase (h : Consumed v s t) (hl : LatchesByPhase s) : LatchesByPhase t := by
  have hn := h.phaseMoves
  have hs : s.phase.number ≤ 14 := (of_decide_eq_true h.running).trans (by decide)
  exact {
    devidBefore := latch_empty_before hn h.devid_eq hl.devidBefore (by decide) (by decide)
    devidAfter := latch_filled_after hn h.devid_eq hl.devidAfter rfl (by decide) hs
    addrBefore := latch_empty_before hn h.addr_eq hl.addrBefore (by decide) (by decide)
    addrAfter := latch_filled_after hn h.addr_eq hl.addrAfter rfl (by decide) hs
    recordBefore := latch_empty_before hn h.ctrl_eq hl.recordBefore (by decide) (by decide)
    ctrlAfter := latch_filled_after hn h.ctrl_eq hl.ctrlAfter rfl (by decide) hs
    bankAfter := latch_filled_after hn h.bank_eq hl.bankAfter rfl (by decide) hs
    countAfter := latch_filled_after hn h.count_eq hl.countAfter rfl (by decide) hs }

theorem Consumed.imageWf (h : Consumed v s t) (hi : ImageWf s) : ImageWf t := by
  cases h
  case stored c b n l hp hc hb hn hl => exact imgWrite_wf (s := advance s) hi l v
  all_goals exact hi

/-- Each latch is filled in a phase in which the ones before it are (R31 d), a cell in `P_DATA` (R31 f). -/
theorem Consumed.latchOrder (h : Consumed v s t) (ho : LatchOrder s) (hl : LatchesByPhase s) : LatchOrder t := by
  have after : ∀ {p : Phase} {k : Nat} {P : Prop}, s.phase = p → (k ≤ s.phase.number → s.phase.number ≤ 14 → P) →
      k ≤ p.number ∧ p.number ≤ 14 → P := fun hp hP hk => by subst hp; exact hP hk.1 hk.2
  cases h
  case id3 hp => exact { ho with addr := fun _ => rfl }
  case addr hp => exact { ho with addr := fun _ => after hp hl.devidAfter (by decide), ctrl := fun _ => rfl }
  case ctrl hp => exact { ho with ctrl := fun _ => after hp hl.addrAfter (by decide), bank := fun _ => rfl }
  case bank hp => exact { ho with bank := fun _ => after hp hl.ctrlAfter (by decide), count := fun _ => rfl }
  case count hp =>
    exact { ho with
      count := fun _ => after hp hl.bankAfter (by decide), crc := fun _ => rfl, image := fun _ => rfl }
  case stored c b n l hp hc hb hn hloc =>
    exact {
      addr := by simpa using ho.addr
      ctrl := by simpa using ho.ctrl
      bank := by simpa using ho.bank
      count := by simpa using ho.count
      crc := by simpa using ho.crc
      image := by simp [hn] }
  case crc1 c hp hc => exact { ho with crc := fun _ => after hp hl.countAfter (by decide) }
  all_goals exact { ho with }

/-- Outside a record's payload and trailer nothing is said of a record but the range of its length. -/
theorem RecordProgress.of_countRange (hr : ∀ n, t.count = some n → 1 ≤ n.toNat ∧ n.toNat ≤ 256)
    (hd : t.phase ≠ .data) (ht : ¬(t.phase = .term ∨ t.phase = .crc0 ∨ t.phase = .crc1 ∨ t.phase = .done)) :
    RecordProgress t where
  countRange := hr
  data := fun h => absurd h hd
  trailer := fun h => absurd h ht
  term := fun h => absurd (.inl h) ht
  crc := fun h => absurd (.inr (h.imp id .inl)) ht
  done := fun h => absurd (.inr (.inr (.inr h))) ht

/-- A record whose trailer is taken ends the run, or another one follows, as its `CONT` says (R156). -/
theorem RecordProgress.next {c : Byte} (hr : RecordProgress s) (hi : s.count = some s.idx) (hc : s.ctrl = some c) :
    RecordProgress (setPhase (nextPhase c) s) := by
  rcases nextPhase_cases c with ⟨-, e⟩ | ⟨hk, e⟩ <;> rw [e]
  · exact .of_countRange hr.countRange (by simp) (by simp)
  · exact {
      countRange := hr.countRange
      data := nofun
      trailer := fun _ => hi
      term := nofun
      crc := by simp
      done := fun _ c' hc' => by obtain rfl : c = c' := Option.some.inj (hc.symm.trans hc'); exact hk }

/-- A stored payload byte brings `IDX` to `COUNT` exactly when the trailer follows (R139). -/
theorem RecordProgress.stored {c : Byte} {n : BitVec 9} (hr : RecordProgress s) (hp : s.phase = .data)
    (hc : s.ctrl = some c) (hn : s.count = some n) (ht : t.idx = s.idx + 1) (htc : t.ctrl = s.ctrl)
    (htn : t.count = s.count) : RecordProgress (setPhase (if s.idx + 1 = n then trailerPhase c else .data) t) := by
  have hrange : ∀ m, t.count = some m → 1 ≤ m.toNat ∧ m.toNat ≤ 256 := fun m hm => hr.countRange m (htn ▸ hm)
  have hlt := hr.data hp n hn
  have hnlt := n.isLt
  have hidx : (s.idx + 1).toNat = s.idx.toNat + 1 := by
    rw [BitVec.toNat_add, show (1 : BitVec 9).toNat = 1 from rfl]; omega
  have hctrl : ∀ c', t.ctrl = some c' → c' = c := fun c' h => Option.some.inj (h.symm.trans (htc.trans hc))
  rcases phase_after_stored (s.idx + 1) n c with ⟨hne, e⟩ | ⟨heq, hu, e⟩ | ⟨heq, hu, e⟩ <;> rw [e]
  · refine {
      countRange := hrange, data := fun _ m hm => ?_, trailer := by simp, term := nofun, crc := by simp, done := nofun }
    obtain rfl : n = m := Option.some.inj (hn.symm.trans (htn ▸ hm))
    have : (s.idx + 1).toNat ≠ n.toNat := fun h => hne (BitVec.eq_of_toNat_eq h)
    show t.idx.toNat < n.toNat
    rw [ht]; omega
  · exact {
      countRange := hrange
      data := nofun
      trailer := fun _ => by rw [setPhase_count, setPhase_idx, htn, hn, ht, heq]
      term := nofun
      crc := fun _ c' h => by rw [hctrl c' h, hu]
      done := nofun }
  · exact {
      countRange := hrange
      data := nofun
      trailer := fun _ => by rw [setPhase_count, setPhase_idx, htn, hn, ht, heq]
      term := fun _ c' h => by rw [hctrl c' h, hu]
      crc := by simp
      done := nofun }

theorem Consumed.recordProgress (h : Consumed v s t) (hr : RecordProgress s) : RecordProgress t := by
  cases h
  case count hp =>
    have h1 := payloadLength_pos v
    have h2 := payloadLength_le v
    have hlen : (BitVec.ofNat 9 (payloadLength v)).toNat = payloadLength v := by
      rw [BitVec.toNat_ofNat, Nat.mod_eq_of_lt (by omega)]
    refine { countRange := ?_, data := ?_, trailer := by simp, term := nofun, crc := by simp, done := nofun }
    · rintro n ⟨⟩; omega
    · rintro - n ⟨⟩; rw [hlen]; exact h1
  case stored c b n l hp hc hb hn hloc => exact hr.stored hp hc hn (by simp) (by simp) (by simp)
  case term c hp hc hv => exact RecordProgress.next (s := advance s) { hr with } (hr.trailer (.inl hp)) hc
  case crc0 hp =>
    exact {
      countRange := hr.countRange
      data := nofun
      trailer := fun _ => hr.trailer (.inr (.inl hp))
      term := nofun
      crc := fun _ => hr.crc (.inl hp)
      done := nofun }
  case crc1 c hp hc =>
    exact RecordProgress.next (s := latchCrc _ (advance s)) { hr with } (hr.trailer (.inr (.inr (.inl hp)))) hc
  all_goals exact .of_countRange hr.countRange (by simp) (by simp)

theorem Consumed.accBounds (h : Consumed v s t) (ha : AccBounds s) : AccBounds t := by
  have hv := v.isLt
  have hf := h.accFold
  refine ⟨fun ht => ?_, fun ht => ?_, fun ht => ?_, fun ht => ?_⟩
  · obtain ⟨-, e⟩ := hf.id1 ht
    rw [e, toNat_setWidth32]; exact hv
  · obtain ⟨hp, e⟩ := hf.id2 ht
    have := ha.id1 hp
    rw [e, foldByte_toNat (by omega)]; omega
  · obtain ⟨hp, e⟩ := hf.id3 ht
    have := ha.id2 hp
    rw [e, foldByte_toNat (by omega)]; omega
  · obtain ⟨-, e⟩ := hf.crc1 ht
    rw [e, toNat_setWidth32]; exact hv

/-! ### Errors -/

/-- Nothing is recorded where no error is. -/
theorem ErrorRecord.of_none (h : s.err = .none) : ErrorRecord s := by
  constructor <;> rw [h] <;> rintro ⟨⟩

/-- No error has been taken in a running phase. -/
theorem Inv.err_of_running (hi : Inv s) (hr : s.phase.running = true) : s.err = .none := by
  by_contra he
  rw [hi.errIff.1 he] at hr
  contradiction

/-- An error is recorded exactly where a byte step enters `P_ERR` (R165). -/
theorem Consumed.errIff (h : Consumed v s t) (he : s.err = .none) : t.err ≠ .none ↔ t.phase = .err := by
  cases h
  case badSync => exact iff_of_true nofun rfl
  case badBank => exact iff_of_true nofun rfl
  case badTerminator => exact iff_of_true nofun rfl
  case stored c b n l hp hc hb hn hloc =>
    rcases phase_after_stored (s.idx + 1) n c with ⟨-, e⟩ | ⟨-, -, e⟩ | ⟨-, -, e⟩ <;> rw [e] <;> simp [he]
  case term c hp hc hv => rcases nextPhase_cases c with ⟨-, e⟩ | ⟨-, e⟩ <;> rw [e] <;> simp [he]
  case crc1 c hp hc => rcases nextPhase_cases c with ⟨-, e⟩ | ⟨-, e⟩ <;> rw [e] <;> simp [he]
  all_goals simp [he]

/-- What the state shows of the error that a byte caused (R162–R164). -/
theorem Consumed.errorRecord (h : Consumed v s t) (hi : Inv s) : ErrorRecord t := by
  have he := hi.err_of_running h.running
  cases h
  case badSync hp hv =>
    have h0 : s.phase.number = 0 := by rw [hp]; rfl
    have hpos : s.pos = 0 := by rw [hi.headerPos (by omega), h0]
    exact ⟨nofun, fun _ => ⟨by simp [hpos], hi.latches.devidBefore (by omega)⟩, nofun, nofun⟩
  case badTerminator c hp hc hv =>
    exact ⟨nofun, nofun, fun _ => ⟨c, hc, hi.progress.term hp c hc, hi.progress.trailer (.inl hp)⟩, nofun⟩
  case badBank c b n hp hc hb hn hloc =>
    exact ⟨nofun, nofun, nofun, fun _ => ⟨c, b, n, hc, hb, hn, hi.progress.data hp n hn, hloc⟩⟩
  all_goals exact .of_none (by simpa using he)

/-! ### Every step keeps the invariant -/

theorem Inv.consumed (hi : Inv s) (hl : s.pos < s.stream.length) (h : Consumed v s t) : Inv t where
  started := fun hoff => by
    have hr : s.phase.number ≤ 13 := of_decide_eq_true h.running
    have hn := h.phaseMoves
    unfold PhaseMoves at hn
    have : t.phase.number = 16 := by rw [hoff]; rfl
    omega
  posInRange := by rw [h.cursor.1, h.cursor.2]; exact hl
  headerPos := h.headerPos hi.headerPos
  errIff := h.errIff (hi.err_of_running h.running)
  sramWf := (h.imageWf ⟨hi.sramWf, hi.lutWf⟩).1
  lutWf := (h.imageWf ⟨hi.sramWf, hi.lutWf⟩).2
  order := h.latchOrder hi.order hi.latches
  latches := h.latchesByPhase hi.latches
  progress := h.recordProgress hi.progress
  accBounds := h.accBounds hi.accBounds
  errorRecord := h.errorRecord hi

/-- An exhausted stream leaves the position at its end (R161). -/
theorem Inv.exhausted (hi : Inv s) (hl : s.stream.length ≤ s.pos) : Inv (raise .unexpectedEnd s) where
  started := nofun
  posInRange := hi.posInRange
  headerPos := fun hn => absurd hn (show ¬ 15 ≤ 6 by decide)
  errIff := iff_of_true nofun rfl
  sramWf := hi.sramWf
  lutWf := hi.lutWf
  order := { hi.order with }
  latches := by constructor <;> intros <;> contradiction
  progress := .of_countRange hi.progress.countRange (by simp) (by simp)
  accBounds := ⟨nofun, nofun, nofun, nofun⟩
  errorRecord := ⟨fun _ => le_antisymm hi.posInRange hl, nofun, nofun, nofun⟩

theorem byteStep_keeps_inv (hi : Inv s) (h : byteStep s = .next t) : Inv t := by
  rcases byteStep_next h with ⟨-, rfl⟩ | ⟨-, hl, rfl⟩ | ⟨v, -, hl, hc⟩
  · exact hi
  · exact hi.exhausted hl
  · exact hi.consumed hl hc

/-- The latches that a phase reads are filled, so that its action on a byte is defined (R31 d). -/
theorem onByte_total (hl : LatchesByPhase s) (v : Byte) : ∃ t, onByte s.phase v (advance s) = .next t := by
  have hctrl : 8 ≤ s.phase.number ∧ s.phase.number ≤ 14 → ∃ c, s.ctrl = some c := fun h =>
    Option.isSome_iff_exists.1 (hl.ctrlAfter h.1 h.2)
  cases hp : s.phase
  case data =>
    obtain ⟨c, hc⟩ := hctrl (by rw [hp]; decide)
    obtain ⟨b, hb⟩ := Option.isSome_iff_exists.1 (hl.bankAfter (by rw [hp]; decide) (by rw [hp]; decide))
    obtain ⟨n, hn⟩ := Option.isSome_iff_exists.1 (hl.countAfter (by rw [hp]; decide) (by rw [hp]; decide))
    simp only [onByte, advance_ctrl, advance_bank, advance_count, hc, hb, hn]
    exact ⟨_, rfl⟩
  case term =>
    obtain ⟨c, hc⟩ := hctrl (by rw [hp]; decide)
    simp only [onByte, advance_ctrl, hc]
    exact ⟨_, rfl⟩
  case crc1 =>
    obtain ⟨c, hc⟩ := hctrl (by rw [hp]; decide)
    simp only [onByte, advance_ctrl, hc]
    exact ⟨_, rfl⟩
  all_goals exact ⟨_, rfl⟩

theorem byteStep_total (hl : LatchesByPhase s) : ∃ t, byteStep s = .next t := by
  rcases byteStep_cases s with ⟨-, e⟩ | ⟨-, -, e⟩ | ⟨-, v, -, -, e⟩
  · exact ⟨_, e⟩
  · exact ⟨_, e⟩
  · rw [e]; exact onByte_total hl v

end

/-- Settles O52, by the rules of the byte steps. -/
theorem byteStepKeepsTheInvariant : Obligations.ByteStepKeepsTheInvariant := by
  unfold Obligations.ByteStepKeepsTheInvariant
  exact fun _ _ => byteStep_keeps_inv

/-- Settles O51: a frame step is byte steps, each of which keeps the invariant. -/
theorem stepKeepsTheInvariant : Obligations.StepKeepsTheInvariant := by
  unfold Obligations.StepKeepsTheInvariant
  exact fun _ _ => step_keeps fun _ _ => byteStep_keeps_inv

/-- Settles O55: the latches that a byte step reads are filled, and a frame step is byte steps. -/
theorem runsNeverStop : Obligations.RunsNeverStop := by
  unfold Obligations.RunsNeverStop
  exact fun _ hi => ⟨step_total (fun _ _ => byteStep_keeps_inv) (fun _ hs => byteStep_total hs.latches) hi,
    byteStep_total hi.latches⟩

/-! ### Position and image -/

section
variable {v : Byte} {s t : State}

theorem byteStep_stream_pos (h : byteStep s = .next t) : t.stream = s.stream ∧ s.pos ≤ t.pos := by
  rcases byteStep_next h with ⟨-, rfl⟩ | ⟨-, -, rfl⟩ | ⟨v, -, -, hc⟩
  · exact ⟨rfl, le_rfl⟩
  · exact ⟨rfl, le_rfl⟩
  · exact ⟨hc.cursor.2, by rw [hc.cursor.1]; omega⟩

/-- Only a payload byte writes the image (R43, R139). -/
theorem Consumed.image_of_not_data (h : Consumed v s t) (hp : s.phase ≠ .data) : t.sram = s.sram ∧ t.lut = s.lut := by
  cases h
  case stored => contradiction
  all_goals exact ⟨rfl, rfl⟩

/-- A payload byte goes to the one location that its address gives, or nowhere (R139, R141). -/
theorem Consumed.payload (h : Consumed v s t) (hp : s.phase = .data) :
    ∃ c b, s.ctrl = some c ∧ s.bank = some b ∧
      (payloadLoc b (ctrlOffset c) s.idx.toNat = none → t.sram = s.sram ∧ t.lut = s.lut) ∧
      ∀ l, payloadLoc b (ctrlOffset c) s.idx.toNat = some l →
        imgRead t l = some v ∧ ∀ l', l' ≠ l → imgRead t l' = imgRead s l' := by
  cases h
  case stored c b n l _ hc hb hn hloc =>
    refine ⟨c, b, hc, hb, fun hno => by rw [hloc] at hno; contradiction, fun m hm => ?_⟩
    obtain rfl : l = m := Option.some.inj (hloc.symm.trans hm)
    exact ⟨by simp, fun l' hl' => by simp [imgRead_imgWrite_other v (advance s) hl']⟩
  case badBank c b n _ hc hb hn hloc =>
    exact ⟨c, b, hc, hb, fun _ => ⟨rfl, rfl⟩, fun m hm => by rw [hloc] at hm; contradiction⟩
  all_goals simp_all

end

/-- Settles O54: the cursor moves with each byte read, and not otherwise. -/
theorem positionNeverDecreases : Obligations.PositionNeverDecreases := by
  unfold Obligations.PositionNeverDecreases
  refine ⟨fun s t h => ?_, fun s t h hr => ?_⟩
  · refine step_keeps (P := fun u => u.stream = s.stream ∧ s.pos ≤ u.pos) (fun a b ha hb => ?_) ⟨rfl, le_rfl⟩ h
    obtain ⟨hst, hpos⟩ := byteStep_stream_pos hb
    exact ⟨hst.trans ha.1, ha.2.trans hpos⟩
  · rcases byteStep_next h with ⟨hr', -⟩ | ⟨-, hl, rfl⟩ | ⟨v, -, hl, hc⟩
    · rw [hr'] at hr; contradiction
    · exact .inr ⟨hl, rfl, rfl, rfl⟩
    · exact .inl ⟨hl, hc.cursor.1⟩

/-- Settles O44, by what a byte step did: nothing, an error at the end of the stream, or the rule of its phase. -/
theorem byteStepWritesAtMostOneCell : Obligations.ByteStepWritesAtMostOneCell := by
  unfold Obligations.ByteStepWritesAtMostOneCell
  intro s t h
  refine ⟨(byteStep_stream_pos h).1, ?_, fun v hp hv => ?_⟩
  · rcases byteStep_next h with ⟨-, rfl⟩ | ⟨-, -, rfl⟩ | ⟨v, -, hl, hc⟩
    · exact fun _ => ⟨rfl, rfl⟩
    · exact fun _ => ⟨rfl, rfl⟩
    · exact fun hor => hc.image_of_not_data (hor.resolve_right (by omega))
  · have hr : s.phase.running = true := by rw [hp]; rfl
    rw [streamByte] at hv
    rw [byteStep_of_byte hr hv] at h
    exact (onByte_consumed hr h).payload hp

/-! ### The start -/

/-- Settles O1: `startState` is `State.reset` with the stream put in. -/
theorem startStateIsTheResetState : Obligations.StartStateIsTheResetState := by
  unfold Obligations.StartStateIsTheResetState
  refine fun S => ⟨rfl, rfl, rfl, rfl, rfl, rfl, rfl, rfl, rfl, rfl, rfl, rfl, fun l => ?_⟩
  cases hr : l.region <;> simp only [imgRead, hr] <;> rfl

/-- The three fields of a byte put together of `0`, an error number and a run state (R15). -/
theorem status_fields : ∀ (e : BitVec 3) (o : BitVec 2),
    ((0 : BitVec 3) ++ e ++ o).extractLsb' 0 2 = o ∧ ((0 : BitVec 3) ++ e ++ o).extractLsb' 2 3 = e ∧
      ((0 : BitVec 3) ++ e ++ o).extractLsb' 5 3 = 0 := by decide

/-- Settles O5, field by field. -/
theorem statusViewLayout : Obligations.StatusViewLayout := by
  unfold Obligations.StatusViewLayout
  intro s
  obtain ⟨hout, herr, hzero⟩ := status_fields s.err.code s.phase.outcome
  refine ⟨hout.trans (by cases s.phase <;> rfl), ?_, ?_, ?_, ?_, ?_, hzero⟩ <;>
  · intro h; rw [h] at herr; rw [status, h]; exact herr

theorem inv_startState (S : List Byte) : Inv (startState S) where
  started := nofun
  posInRange := Nat.zero_le _
  headerPos := fun _ => rfl
  errIff := iff_of_false (fun h => h rfl) nofun
  sramWf := reset_image_wf.1
  lutWf := reset_image_wf.2
  order := ⟨nofun, nofun, nofun, nofun, nofun, fun h => by simp [startState, State.reset] at h⟩
  latches := ⟨fun _ => rfl, nofun, fun _ => rfl, nofun, fun _ => rfl, nofun, nofun, nofun⟩
  progress := .of_countRange nofun nofun (by simp [startState, State.reset])
  accBounds := ⟨nofun, nofun, nofun, nofun⟩
  errorRecord := .of_none rfl

theorem headerFromStream_startState (S : List Byte) : HeaderFromStream (startState S) where
  headerPos := fun _ => rfl
  sync := fun h => absurd h.1 (show ¬ 1 ≤ 0 by decide)
  id1 := nofun
  id2 := nofun
  id3 := nofun
  devid := nofun
  addr := nofun

/-- Settles O50: `State.reset` is the start state of the empty stream. -/
theorem startMeetsTheInvariant : Obligations.StartMeetsTheInvariant := by
  unfold Obligations.StartMeetsTheInvariant
  exact ⟨inv_startState [], fun S => ⟨inv_startState S, headerFromStream_startState S⟩⟩

end Sys2Proof.Machine

namespace Sys2Proof.Machine

/-! ### The image under a step (R49, R51) -/

/-- A write empties no cell (R43, R51). -/
theorem imgRead_imgWrite_ne_none {s : State} {l' : Loc} (h : imgRead s l' ≠ none) (l : Loc) (v : Byte) :
    imgRead (imgWrite l v s) l' ≠ none := by
  by_cases hl : l' = l
  · simp [hl]
  · rwa [imgRead_imgWrite_other v s hl]

theorem Consumed.imgRead_ne_none {v : Byte} {s t : State} (h : Consumed v s t) {l : Loc} (hl : imgRead s l ≠ none) :
    imgRead t l ≠ none := by
  cases h
  case stored m _ _ _ _ _ => exact imgRead_imgWrite_ne_none (s := advance s) hl m v
  all_goals exact hl

theorem byteStep_imgRead_ne_none {s t : State} {l : Loc} (hl : imgRead s l ≠ none) (h : byteStep s = .next t) :
    imgRead t l ≠ none := by
  rcases byteStep_next h with ⟨-, rfl⟩ | ⟨-, -, rfl⟩ | ⟨v, -, -, hc⟩
  · exact hl
  · exact hl
  · exact hc.imgRead_ne_none hl

/-- Settles O45: of the byte steps' rules only that of a payload byte touches the image, and it fills a cell; a frame
step is byte steps. -/
theorem writtenCellsStayWritten : Obligations.WrittenCellsStayWritten := by
  unfold Obligations.WrittenCellsStayWritten
  rintro s t (h | h) l hl
  · exact step_keeps (P := fun u => imgRead u l ≠ none) (fun _ _ => byteStep_imgRead_ne_none) hl h
  · exact byteStep_imgRead_ne_none hl h

/-- The state with other image contents. -/
def withImage (m m' : Memory) (s : State) : State := { s with sram := m, lut := m' }

/-- A write does the same to everything but the image, whatever the image holds. -/
theorem imgWrite_withImage (l : Loc) (v : Byte) (m m' : Memory) (s : State) :
    ∃ n n', imgWrite l v (withImage m m' s) = withImage n n' (imgWrite l v s) :=
  ⟨_, _, by rw [imgWrite_rest l v s]; exact imgWrite_rest l v (withImage m m' s)⟩

/-- The rule of a byte step and what it does to everything but the image do not depend on the image. -/
theorem Consumed.withOtherImage {v : Byte} {s t : State} (h : Consumed v s t) (m m' : Memory) :
    ∃ n n', Consumed v (withImage m m' s) (withImage n n' t) := by
  cases h with
  | stored c b n l hp hc hb hn hl =>
    obtain ⟨k, k', hw⟩ := imgWrite_withImage l v m m' (advance s)
    refine ⟨k, k', ?_⟩
    change Consumed v (withImage m m' s) (setPhase (if s.idx + 1 = n then _ else _) (bumpIdx (withImage k k' _)))
    rw [← hw]
    exact .stored c b n l hp hc hb hn hl
  | sync hp hv => exact ⟨m, m', .sync hp hv⟩
  | badSync hp hv => exact ⟨m, m', .badSync hp hv⟩
  | id0 hp => exact ⟨m, m', .id0 hp⟩
  | id1 hp => exact ⟨m, m', .id1 hp⟩
  | id2 hp => exact ⟨m, m', .id2 hp⟩
  | id3 hp => exact ⟨m, m', .id3 hp⟩
  | addr hp => exact ⟨m, m', .addr hp⟩
  | rsvd hp => exact ⟨m, m', .rsvd hp⟩
  | ctrl hp => exact ⟨m, m', .ctrl hp⟩
  | bank hp => exact ⟨m, m', .bank hp⟩
  | count hp => exact ⟨m, m', .count hp⟩
  | badBank c b n hp hc hb hn hl => exact ⟨m, m', .badBank c b n hp hc hb hn hl⟩
  | term c hp hc hv => exact ⟨m, m', .term c hp hc hv⟩
  | badTerminator c hp hc hv => exact ⟨m, m', .badTerminator c hp hc hv⟩
  | crc0 hp => exact ⟨m, m', .crc0 hp⟩
  | crc1 c hp hc => exact ⟨m, m', .crc1 c hp hc⟩

/-- The two states agree in everything but the image. -/
def SameButImage (s s' : State) : Prop := ∃ m m', s' = withImage m m' s

theorem byteStep_sameButImage {s s' t : State} (hs : SameButImage s s') (h : byteStep s = .next t) :
    ∃ t', byteStep s' = .next t' ∧ SameButImage t t' := by
  obtain ⟨m, m', rfl⟩ := hs
  rcases byteStep_next h with ⟨hr, rfl⟩ | ⟨hr, hl, rfl⟩ | ⟨v, hv, -, hc⟩
  · exact ⟨_, byteStep_of_terminal hr, m, m', rfl⟩
  · exact ⟨_, byteStep_of_end hr hl, m, m', rfl⟩
  · obtain ⟨n, n', hc'⟩ := hc.withOtherImage m m'
    exact ⟨_, byteStep_of_consumed hv hc', n, n', rfl⟩

/-- How many byte steps a step may take is a matter of the phase alone. -/
theorem step_eq_byteFrame_of_phase (p : Phase) : ∃ k, ∀ s : State, s.phase = p → step s = byteFrame k s := by
  cases hc : p.context with
  | none => exact ⟨0, fun s hp => step_of_no_context (hp ▸ hc)⟩
  | some c =>
    cases c with
    | firstFrame => exact ⟨6, fun s hp => step_eq_byteFrame_of_sync (hp.trans ((context_firstFrame_iff p).1 hc))⟩
    | laterFrame => exact ⟨260, fun s hp => step_eq_byteFrame_of_ctrl (hp.trans ((context_laterFrame_iff p).1 hc))⟩

/-- A relation between states that every byte step carries along is carried along by the steps. -/
theorem step_sim {R : State → State → Prop} (hphase : ∀ s s', R s s' → s.phase = s'.phase)
    (hb : ∀ s s' t, R s s' → byteStep s = .next t → ∃ t', byteStep s' = .next t' ∧ R t t') {s s' t : State}
    (hs : R s s') (h : step s = .next t) : ∃ t', step s' = .next t' ∧ R t t' := by
  obtain ⟨k, hk⟩ := step_eq_byteFrame_of_phase s.phase
  rw [hk s' (hphase s s' hs).symm]
  exact byteFrame_sim hphase hb k s s' t hs (hk s rfl ▸ h)

/-- Settles O46: byte steps from states that agree in everything but the image lead to such states, and a frame step is
byte steps. -/
theorem imageIsNeverRead : Obligations.ImageIsNeverRead := by
  unfold Obligations.ImageIsNeverRead
  intro s t m m' h
  have hphase : ∀ a b, SameButImage a b → a.phase = b.phase := by rintro a _ ⟨_, _, rfl⟩; rfl
  obtain ⟨_, ht, n, n', rfl⟩ := step_sim hphase (fun _ _ _ => byteStep_sameButImage) ⟨m, m', rfl⟩ h
  exact ⟨_, ht, rfl⟩

end Sys2Proof.Machine

namespace Sys2Proof

/-! ### A record's encoding: its head, then its trailer (R72, R77) -/

/-- The trailer of a frame form in stream order (R77). -/
def trailerBytes : Instr → List Byte
  | .hdr _ _ _ => []
  | .recTL _ _ _ _ term => [term]
  | .recTC _ _ _ _ term => [term]
  | .recCL _ _ _ _ crc => [byteOf crc 1, byteOf crc 0]
  | .recCC _ _ _ _ crc => [byteOf crc 1, byteOf crc 0]

section
variable {i : Instr} {r : RecordFields}

theorem encode_record (h : recordFields i = some r) :
    encode i = encodeRecordHead r.ctrl r.bank r.payload ++ trailerBytes i := by
  cases i <;> cases h <;> rfl

/-- Bit 5 of the control byte gives the trailer's length (R73, R78). -/
theorem trailerBytes_length (h : recordFields i = some r) :
    (trailerBytes i).length = if ctrlUseCrc r.ctrl then 2 else 1 := by
  cases i <;> cases h <;> rw [ctrlUseCrc_ctrlByte] <;> rfl

theorem encodable_record (h : recordFields i = some r) : i.encodable = payloadFits r.payload := by
  cases i <;> cases h <;> rfl

theorem frameContext_record (h : recordFields i = some r) : frameContext i = .laterFrame := by
  cases i <;> cases h <;> rfl

theorem encode_record_length (h : recordFields i = some r) :
    (encode i).length = 3 + r.payload.length + if ctrlUseCrc r.ctrl then 2 else 1 := by
  rw [encode_record h, List.length_append, trailerBytes_length h, encodeRecordHead]
  simp only [List.length_cons]
  omega

end

/-- `frameLength` counts the bytes of the encoding (R78). -/
theorem encode_length (i : Instr) : (encode i).length = frameLength i := by
  cases i with
  | hdr => rfl
  | recTL => simp [encode, encodeRecordHead, frameLength]; omega
  | recTC => simp [encode, encodeRecordHead, frameLength]; omega
  | recCL => simp [encode, encodeRecordHead, frameLength]; omega
  | recCC => simp [encode, encodeRecordHead, frameLength]; omega

/-! ### Decode of encode -/

theorem decode_encode_header (d : BitVec 32) (a r : Byte) (rest : List Byte) :
    decode .firstFrame (encode (.hdr d a r) ++ rest) = .ok (.hdr d a r, rest) := by
  have hd : decodeHeader (byteOf d 3 :: byteOf d 2 :: byteOf d 1 :: byteOf d 0 :: a :: r :: rest) =
      (.hdr (bigEndian32 (byteOf d 3) (byteOf d 2) (byteOf d 1) (byteOf d 0)) a r, rest) := rfl
  rw [bigEndian32_bytes] at hd
  simp only [encode, List.cons_append, List.nil_append, decode, if_true, hd]

/-- Behind the control byte of an encoded record the decoder reads the record and leaves what follows it. -/
theorem decodeRecord_encoded {i : Instr} {r : RecordFields} (h : recordFields i = some r) (he : i.encodable = true)
    (rest : List Byte) :
    decodeRecord r.ctrl (r.bank :: countByte r.payload.length :: (r.payload ++ (trailerBytes i ++ rest))) =
      (i, rest) := by
  rw [decodeRecord_body (encodable_record h ▸ he)]
  have hcrc : ∀ crc : BitVec 16, bigEndian16 (fillAt (byteOf crc 1 :: byteOf crc 0 :: rest) 0)
      (fillAt (byteOf crc 1 :: byteOf crc 0 :: rest) 1) = crc := bigEndian16_bytes
  cases i with
  | hdr => cases h
  | recTL => cases h; simp [trailerBytes, fillAt]
  | recTC => cases h; simp [trailerBytes, fillAt]
  | recCL => cases h; simp [trailerBytes, hcrc]
  | recCC => cases h; simp [trailerBytes, hcrc]

theorem decode_encode_record {i : Instr} {r : RecordFields} (h : recordFields i = some r) (he : i.encodable = true)
    (rest : List Byte) : decode (frameContext i) (encode i ++ rest) = .ok (i, rest) := by
  rw [frameContext_record h, encode_record h, List.append_assoc]
  exact congrArg Except.ok (decodeRecord_encoded h he rest)

theorem header_or_record (i : Instr) : (∃ d a r, i = .hdr d a r) ∨ ∃ r, recordFields i = some r := by
  cases i with
  | hdr d a r => exact .inl ⟨d, a, r, rfl⟩
  | recTL => exact .inr ⟨_, rfl⟩
  | recTC => exact .inr ⟨_, rfl⟩
  | recCL => exact .inr ⟨_, rfl⟩
  | recCC => exact .inr ⟨_, rfl⟩

/-- Settles O10: a header by its operand bytes, a record by its head and its trailer. -/
theorem decodeOfEncodeIsTheFrame : Obligations.DecodeOfEncodeIsTheFrame := by
  unfold Obligations.DecodeOfEncodeIsTheFrame
  intro i rest he
  rcases header_or_record i with ⟨d, a, r, rfl⟩ | ⟨r, hr⟩
  · exact decode_encode_header d a r rest
  · exact decode_encode_record hr he rest

/-! ### Encode of decode -/

/-- Everything the decoder answers where it answers a frame (R81). -/
theorem decode_ok {c : Context} {bs : List Byte} {i : Instr} {rest : List Byte} (h : decode c bs = .ok (i, rest)) :
    (c = .firstFrame ∧ ∃ bs', bs = Config.SYNC :: bs' ∧ decodeHeader bs' = (i, rest)) ∨
    (c = .laterFrame ∧ ∃ b bs', bs = b :: bs' ∧ decodeRecord b bs' = (i, rest)) := by
  cases bs with
  | nil => cases c <;> cases h
  | cons b bs' =>
    cases c with
    | firstFrame =>
      by_cases hb : b = Config.SYNC
      · rw [decode, if_pos hb] at h
        exact .inl ⟨rfl, bs', by rw [hb], Except.ok.inj h⟩
      · rw [decode, if_neg hb] at h
        cases h
    | laterFrame => exact .inr ⟨rfl, b, bs', rfl, Except.ok.inj h⟩

/-- A list cut behind its first bytes, as the decoder reads it. -/
theorem fillAt_cons_drop {bs : List Byte} {k : Nat} (h : k < bs.length) :
    fillAt bs k :: bs.drop (k + 1) = bs.drop k := by
  rw [List.drop_eq_getElem_cons h, fillAt, List.getD_eq_getElem _ _ h]

theorem encode_decodeHeader {bs : List Byte} (h : 6 ≤ bs.length) :
    encode (decodeHeader bs).1 ++ (decodeHeader bs).2 = Config.SYNC :: bs := by
  obtain ⟨h3, h2, h1, h0⟩ := byteOf_bigEndian32 (fillAt bs 0) (fillAt bs 1) (fillAt bs 2) (fillAt bs 3)
  simp only [decodeHeader, encode, h3, h2, h1, h0, List.cons_append, List.nil_append]
  rw [fillAt_cons_drop (by omega), fillAt_cons_drop (by omega), fillAt_cons_drop (by omega),
    fillAt_cons_drop (by omega), fillAt_cons_drop (by omega), fillAt_cons_drop (by omega), List.drop_zero]

/-- The trailer that the decoder reads, and what it leaves over, are the bytes behind the payload (R77). -/
theorem trailerBytes_decodeRecord {c : Byte} {bs : List Byte}
    (h : 2 + payloadLength (fillAt bs 1) + (if ctrlUseCrc c then 2 else 1) ≤ bs.length) :
    trailerBytes (decodeRecord c bs).1 ++ (decodeRecord c bs).2 = bs.drop (2 + payloadLength (fillAt bs 1)) := by
  generalize hn : 2 + payloadLength (fillAt bs 1) = n at h
  have h0 : n + 1 ≤ bs.length → fillAt (bs.drop n) 0 :: bs.drop (n + 1) = bs.drop n := fun hl => by
    simpa using fillAt_cons_drop (bs := bs.drop n) (k := 0) (by simp; omega)
  have h1 : n + 2 ≤ bs.length → fillAt (bs.drop n) 1 :: bs.drop (n + 2) = bs.drop (n + 1) := fun hl => by
    simpa using fillAt_cons_drop (bs := bs.drop n) (k := 1) (by simp; omega)
  obtain ⟨hhi, hlo⟩ := byteOf_bigEndian16 (fillAt (bs.drop n) 0) (fillAt (bs.drop n) 1)
  unfold decodeRecord
  cases hu : ctrlUseCrc c <;> rw [hu] at h <;> cases hk : ctrlContinues c <;>
    simp only [hn, trailerBytes, hhi, hlo, List.drop_drop, List.cons_append, List.nil_append]
  · exact h0 h
  · exact h0 h
  · rw [h1 h, h0 (by simp at h; omega)]
  · rw [h1 h, h0 (by simp at h; omega)]

theorem encodable_decodeRecord (c : Byte) (bs : List Byte) : (decodeRecord c bs).1.encodable = true := by
  rw [encodable_record (Machine.recordFields_decodeRecord c bs), payloadFits_iff, takeFill_length]
  exact ⟨payloadLength_pos _, payloadLength_le _⟩

/-- A frame that the decoder answers can be encoded and is one of its context (R75, R81). -/
theorem decode_encodable {c : Context} {bs : List Byte} {i : Instr} {rest : List Byte}
    (h : decode c bs = .ok (i, rest)) : i.encodable = true ∧ frameContext i = c := by
  rcases decode_ok h with ⟨rfl, bs', -, hd⟩ | ⟨rfl, b, bs', -, hd⟩
  · obtain rfl : (decodeHeader bs').1 = i := congrArg Prod.fst hd
    exact ⟨rfl, rfl⟩
  · obtain rfl : (decodeRecord b bs').1 = i := congrArg Prod.fst hd
    exact ⟨encodable_decodeRecord b bs', frameContext_record (Machine.recordFields_decodeRecord b bs')⟩

theorem encode_decodeRecord {c : Byte} {bs : List Byte} (h : frameLength (decodeRecord c bs).1 ≤ bs.length + 1) :
    encode (decodeRecord c bs).1 ++ (decodeRecord c bs).2 = c :: bs := by
  have hr := Machine.recordFields_decodeRecord c bs
  rw [← encode_length, encode_record_length hr] at h
  simp only [takeFill_length] at h
  have htrailer : 2 + payloadLength (fillAt bs 1) + (if ctrlUseCrc c then 2 else 1) ≤ bs.length := by omega
  have hpayload : takeFill (payloadLength (fillAt bs 1)) (bs.drop 2) ++ bs.drop (2 + payloadLength (fillAt bs 1)) =
      bs.drop 2 := by
    rw [takeFill_eq_take (by rw [List.length_drop]; omega), ← List.drop_drop, List.take_append_drop]
  rw [encode_record hr, List.append_assoc, trailerBytes_decodeRecord htrailer, encodeRecordHead, takeFill_length,
    countByte_payloadLength, List.cons_append, List.cons_append, List.cons_append, hpayload,
    fillAt_cons_drop (by omega), fillAt_cons_drop (by omega), List.drop_zero]

/-- Settles O11: the operands that the decoder reads are written back byte by byte. -/
theorem encodeOfDecodeIsTheBytes : Obligations.EncodeOfDecodeIsTheBytes := by
  unfold Obligations.EncodeOfDecodeIsTheBytes
  intro c bs i rest h hl
  refine ⟨?_, decode_encodable h⟩
  rcases decode_ok h with ⟨-, bs', rfl, hd⟩ | ⟨-, b, bs', rfl, hd⟩
  · have h6 := encode_decodeHeader (bs := bs')
    rw [hd] at h6
    obtain rfl : (decodeHeader bs').1 = i := congrArg Prod.fst hd
    exact h6 (by simpa [decodeHeader, frameLength] using hl)
  · have hrec := encode_decodeRecord (c := b) (bs := bs')
    rw [hd] at hrec
    exact hrec hl

end Sys2Proof

namespace Sys2Proof.Machine

/-! ### Trailing bytes (R89) -/

/-- The state with another stream. -/
def withStream (S : List Byte) (s : State) : State := { s with stream := S }

theorem imgWrite_withStream (l : Loc) (v : Byte) (S : List Byte) (s : State) :
    imgWrite l v (withStream S s) = withStream S (imgWrite l v s) := by
  unfold imgWrite; split <;> rfl

/-- What a byte step does with the byte it has read does not depend on the stream. -/
theorem Consumed.withOtherStream {v : Byte} {s t : State} (h : Consumed v s t) (S : List Byte) :
    Consumed v (withStream S s) (withStream S t) := by
  cases h with
  | stored c b n l hp hc hb hn hl =>
    change Consumed v _ (setPhase (if s.idx + 1 = n then _ else _) (bumpIdx (withStream S (imgWrite l v (advance s)))))
    rw [← imgWrite_withStream]
    exact .stored c b n l hp hc hb hn hl
  | sync hp hv => exact .sync hp hv
  | badSync hp hv => exact .badSync hp hv
  | id0 hp => exact .id0 hp
  | id1 hp => exact .id1 hp
  | id2 hp => exact .id2 hp
  | id3 hp => exact .id3 hp
  | addr hp => exact .addr hp
  | rsvd hp => exact .rsvd hp
  | ctrl hp => exact .ctrl hp
  | bank hp => exact .bank hp
  | count hp => exact .count hp
  | badBank c b n hp hc hb hn hl => exact .badBank c b n hp hc hb hn hl
  | term c hp hc hv => exact .term c hp hc hv
  | badTerminator c hp hc hv => exact .badTerminator c hp hc hv
  | crc0 hp => exact .crc0 hp
  | crc1 c hp hc => exact .crc1 c hp hc

/-- A byte step that does not fail reads the same byte of a stream that only goes on further. -/
theorem byteStep_withMore {s t : State} (h : byteStep s = .next t) (he : t.phase ≠ .err) (rest : List Byte) :
    byteStep (withStream (s.stream ++ rest) s) = .next (withStream (t.stream ++ rest) t) := by
  rw [(byteStep_stream_pos h).1]
  rcases byteStep_next h with ⟨hr, rfl⟩ | ⟨-, -, rfl⟩ | ⟨v, hv, hl, hc⟩
  · exact byteStep_of_terminal hr
  · exact absurd rfl he
  · exact byteStep_of_consumed ((List.getElem?_append_left hl).trans hv) (hc.withOtherStream _)

/-- Such a run of byte steps goes the same way: an error on the way would have stayed to its end. -/
theorem byteRun_withMore {s t : State} (k : Nat) (h : byteRun k s = .next t) (he : t.phase ≠ .err)
    (rest : List Byte) :
    byteRun k (withStream (s.stream ++ rest) s) = .next (withStream (t.stream ++ rest) t) := by
  induction k generalizing s with
  | zero => cases h; rfl
  | succ k ih =>
    rw [byteRun] at h ⊢
    cases hs : byteStep s with
    | fault f => rw [hs] at h; cases h
    | refused f => rw [hs] at h; cases h
    | next u =>
      rw [hs] at h
      have hu : u.phase ≠ .err := fun hu => by
        have hstay : byteRun k u = .next u := byteRun_of_terminal (by rw [hu]; rfl) k
        cases hstay.symm.trans h
        exact he hu
      rw [byteStep_withMore hs hu]
      exact ih h

theorem byteRun_stream {s t : State} (k : Nat) (h : byteRun k s = .next t) : t.stream = s.stream := by
  induction k generalizing s with
  | zero => cases h; rfl
  | succ k ih =>
    rw [byteRun] at h
    cases hs : byteStep s with
    | fault f => rw [hs] at h; cases h
    | refused f => rw [hs] at h; cases h
    | next u => rw [hs] at h; exact (ih h).trans (byteStep_stream_pos hs).1

/-- Settles O59: a run that reaches `P_DONE` has met no end of the stream. -/
theorem trailingBytesAreNotRead : Obligations.TrailingBytesAreNotRead := by
  unfold Obligations.TrailingBytesAreNotRead
  intro S rest k t h hd
  have hrun := byteRun_withMore k h (by rw [hd]; decide) rest
  rwa [byteRun_stream k h] at hrun

/-! ### The frame at the cursor -/

/-- Settles O7: the two branches of `step`, by whether a frame begins in the phase. -/
theorem stepRunsTheDecodedFrame : Obligations.StepRunsTheDecodedFrame := by
  unfold Obligations.StepRunsTheDecodedFrame
  exact ⟨fun _ _ _ _ hc h => step_of_frame hc h, fun _ hc => step_of_no_context hc⟩

/-- Settles O8: the decoder reads the frame back from its encoding. -/
theorem stepRunsTheEncodedFrame : Obligations.StepRunsTheEncodedFrame := by
  unfold Obligations.StepRunsTheEncodedFrame
  intro s i rest he hc hs
  exact step_of_frame hc (by rw [hs]; exact decodeOfEncodeIsTheFrame i rest he)

/-- What is placed at the cursor stands there. -/
theorem drop_placeAt (pos : Nat) (bytes S : List Byte) :
    (placeAt pos bytes S).drop pos = bytes ++ S.drop (pos + bytes.length) := by
  rw [placeAt, List.append_assoc, List.drop_left' (takeFill_length pos S)]

theorem contextPhase_context (c : Context) : (contextPhase c).context = some c := by cases c <;> rfl

theorem decodeTableWord_encodable {nbits w : Nat} {i : Instr} (h : decodeTableWord nbits w = some i) :
    i.encodable = true := by
  rw [decodeTableWord] at h
  split at h
  · rename_i hd; cases h; exact (decode_encodable hd).1
  · cases h

/-- Settles O9: the word's frame is encodable, and its encoding is placed at the cursor. -/
theorem fetchWordIsRunNext : Obligations.FetchWordIsRunNext := by
  unfold Obligations.FetchWordIsRunNext
  intro s nbits w i h
  rw [State.withFetchWord, h]
  exact stepRunsTheEncodedFrame _ i _ (decodeTableWord_encodable h) (contextPhase_context _) (drop_placeAt ..)

end Sys2Proof.Machine

namespace Sys2Proof

/-! ### Frame lengths and the opcode map (R78, R81) -/

/-- Settles O12: the length of a record from its head and its trailer; both bounds are met by a frame. -/
theorem frameLengthsInBytes : Obligations.FrameLengthsInBytes := by
  unfold Obligations.FrameLengthsInBytes
  refine ⟨fun _ _ _ => rfl, fun _ _ h => encode_record_length h, fun i r h he => ?_, ?_, ?_⟩
  · rw [encodable_record h, payloadFits_iff] at he
    obtain ⟨hmin, hmax⟩ := he
    have hlen := encode_record_length h
    have htrailer : (if ctrlUseCrc r.ctrl then 2 else 1) = 1 ∨ (if ctrlUseCrc r.ctrl then 2 else 1) = 2 := by
      split <;> simp
    refine ⟨by omega, by omega, fun d a v => ?_⟩
    rw [List.length_append, show (encode (.hdr d a v)).length = 7 from rfl]
    omega
  · exact ⟨.recTL false 0 0 [0] Config.TERM, _, rfl, by decide, rfl, fun _ _ _ => rfl⟩
  · refine ⟨.recCL false 0 0 (List.replicate 256 0) 0, _, rfl, ?_, ?_⟩
    · simp only [Instr.wellFormed, Instr.encodable, Instr.terminated, Bool.and_true, payloadFits_iff,
        List.length_replicate]
      decide
    · rw [encode_record_length rfl, List.length_replicate, ctrlUseCrc_ctrlByte, if_pos rfl]

/-- The mask of the opcode table selects `CONT` and `USE_CRC` (R73, R81). -/
theorem and_mask_fields (c : Byte) : c &&& 0x60 = ctrlByte false (ctrlContinues c) (ctrlUseCrc c) 0 := by
  conv_lhs => rw [← ctrlByte_fields c]
  exact ctrlByte_and_mask ..

/-- The record form that a control byte names (R81). -/
theorem decodeRecord_form (c : Byte) (bs : List Byte) :
    (c &&& 0x60 = 0x00 ∧ ∃ x off b p t, (decodeRecord c bs).1 = .recTL x off b p t) ∨
    (c &&& 0x60 = 0x20 ∧ ∃ x off b p v, (decodeRecord c bs).1 = .recCL x off b p v) ∨
    (c &&& 0x60 = 0x40 ∧ ∃ x off b p t, (decodeRecord c bs).1 = .recTC x off b p t) ∨
    (c &&& 0x60 = 0x60 ∧ ∃ x off b p v, (decodeRecord c bs).1 = .recCC x off b p v) := by
  rw [and_mask_fields, decodeRecord]
  cases ctrlUseCrc c <;> cases ctrlContinues c
  · exact .inl ⟨rfl, _, _, _, _, _, rfl⟩
  · exact .inr (.inr (.inl ⟨rfl, _, _, _, _, _, rfl⟩))
  · exact .inr (.inl ⟨rfl, _, _, _, _, _, rfl⟩)
  · exact .inr (.inr (.inr ⟨rfl, _, _, _, _, _, rfl⟩))

/-- Settles O13: the decoder's case split on two bits of the control byte, and its one comparison with `SYNC`. -/
theorem firstByteSelectsTheForm : Obligations.FirstByteSelectsTheForm := by
  unfold Obligations.FirstByteSelectsTheForm
  refine ⟨fun c bs => ⟨(decodeRecord c bs).1, (decodeRecord c bs).2, rfl,
    frameContext_record (Machine.recordFields_decodeRecord c bs), ?_⟩,
    fun b bs => ⟨fun hb => ⟨_, _, _, _, if_pos hb⟩, fun hb => if_neg hb⟩⟩
  rcases decodeRecord_form c bs with ⟨hm, hf⟩ | ⟨hm, hf⟩ | ⟨hm, hf⟩ | ⟨hm, hf⟩ <;>
    obtain ⟨x, off, b, p, t, hi⟩ := hf <;> rw [hi, hm]
  · exact ⟨hm, fun _ => ⟨_, _, _, _, _, rfl⟩, nofun, nofun, nofun⟩
  · exact ⟨hm, nofun, fun _ => ⟨_, _, _, _, _, rfl⟩, nofun, nofun⟩
  · exact ⟨hm, nofun, nofun, fun _ => ⟨_, _, _, _, _, rfl⟩, nofun⟩
  · exact ⟨hm, nofun, nofun, nofun, fun _ => ⟨_, _, _, _, _, rfl⟩⟩

end Sys2Proof

namespace Sys2Proof.Machine

/-! ### Multi-byte operands (R79) -/

/-- `HDR` where its seven bytes are there (R120). -/
theorem exec_hdr_complete {s : State} {devid : BitVec 32} {addr rsvd : Byte} (hp : s.phase = .sync)
    (h : s.pos + 7 ≤ s.stream.length) :
    exec (.hdr devid addr rsvd) s =
      .next { s with
        pos := s.pos + 7, devid := some devid, addr := some addr, phase := .ctrl,
        acc := foldByte (foldByte (foldByte 0 (byteOf devid 3)) (byteOf devid 2)) (byteOf devid 1) } := by
  rw [exec, execHdr, inContext_of_eq ((context_firstFrame_iff _).2 hp), consume_of_lt (by omega)]
  simp (disch := (simp; omega)) only [consume_of_lt, nextN_more, nextN_one, going_andThen, going_thenDo,
    foldByte_word32, going_state]
  simp only [setPhase, latchAddr, latchDevid, setAcc, advance, Nat.add_assoc, Nat.reduceAdd]

/-- Two byte steps in the CRC trailer deliver the fold of their bytes (R154, R155). -/
theorem byteRun_crc {s : State} {c hi lo : Byte} (hp : s.phase = .crc0) (hc : s.ctrl = some c)
    (hhi : s.stream[s.pos]? = some hi) (hlo : s.stream[s.pos + 1]? = some lo) :
    ∃ t, byteRun 2 s = .next t ∧ t.crc = some ((foldByte (hi.setWidth 32) lo).setWidth 16) := by
  have h0 := byteStep_of_consumed hhi (.crc0 hp)
  have h1 := byteStep_of_consumed (s := setPhase .crc1 (setAcc (hi.setWidth 32) (advance s))) hlo (.crc1 c rfl hc)
  exact ⟨_, by simp only [byteRun, h0, h1]; rfl, rfl⟩

theorem foldByte_pair_toNat (hi lo : Byte) :
    ((foldByte (hi.setWidth 32) lo).setWidth 16).toNat = hi.toNat * 2 ^ 8 + lo.toNat := by
  have := hi.isLt; have := lo.isLt
  rw [BitVec.toNat_setWidth, foldByte_toNat (by rw [toNat_setWidth32]; omega), toNat_setWidth32]
  omega

/-- Settles O19: what `DEVID` holds is what stands in the stream (`HeaderFromStream`); `CRC` is a fold of two bytes. -/
theorem multiByteOperandsAreBigEndian : Obligations.MultiByteOperandsAreBigEndian := by
  unfold Obligations.MultiByteOperandsAreBigEndian
  refine ⟨fun b1 b2 b3 b4 a r rest => ?_, fun s c hi lo hp hc hhi hlo => ?_⟩
  · have hdec : decode .firstFrame (0xD5 :: b1 :: b2 :: b3 :: b4 :: a :: r :: rest) =
      .ok (.hdr (bigEndian32 b1 b2 b3 b4) a r, rest) := rfl
    have hstep := (step_of_frame (s := startState _) rfl hdec).trans
      (exec_hdr_complete rfl (by simp [startState, State.reset]))
    obtain ⟨_, _, _, _, h1, h2, h3, h4, hd⟩ := (headerLatchesMatchTheStream _ _ (headerFromStream_startState _)
      (.inl hstep)).devid _ rfl
    cases h1; cases h2; cases h3; cases h4
    exact ⟨_, _, hstep, rfl, hd⟩
  · obtain ⟨t, ht, hcrc⟩ := byteRun_crc hp hc hhi hlo
    exact ⟨t, _, ht, hcrc, foldByte_pair_toNat hi lo⟩

/-! ### A record does not depend on earlier records (R85) -/

/-- A record whose first three bytes are there: its payload and its trailer run from the state that `PREFIX` has
latched (R132). -/
theorem exec_record_latched {i : Instr} {r : RecordFields} (h : recordFields i = some r) {s : State}
    (hp : s.phase = .ctrl) (hpos : s.pos + 3 ≤ s.stream.length) :
    exec i s = .next (((payloadLoop r.bank r.off r.payload
      { s with
        pos := s.pos + 3, ctrl := some r.ctrl, bank := some r.bank, count := some (BitVec.ofNat 9 r.payload.length),
        idx := 0 }).andThen (trailerOf i)).thenDo (setPhase (nextPhase r.ctrl))).state := by
  rw [exec_record_next h hp, recordBody, recordHead_going hpos, going_andThen]

/-- Settles O28: `PREFIX` writes the four latches before anything reads them. -/
theorem recordsAreIndependent : Obligations.RecordsAreIndependent := by
  unfold Obligations.RecordsAreIndependent
  intro s i r c b n k h hp hpos
  exact (exec_record_latched (s := { s with ctrl := c, bank := b, count := n, idx := k }) h hp hpos).trans
    (exec_record_latched h hp hpos).symm

/-! ### Bit 7 of the control byte (R82) -/

/-- The state with `v` in `CTRL`. -/
def withCtrl (v : Option Byte) (s : State) : State := { s with ctrl := v }

/-- A frame rule followed, however it ends, by an update of the state. -/
def Flow.map (f : State → State) : Flow → Flow
  | .going s => .going (f s)
  | .raised s => .raised (f s)

theorem map_state (f : State → State) (a : Flow) : (a.map f).state = f a.state := by cases a <;> rfl

/-- A frame procedure that neither reads nor writes `CTRL`. -/
def CtrlBlind (k : State → Flow) : Prop := ∀ v s, k (withCtrl v s) = (k s).map (withCtrl v)

theorem CtrlBlind.map_andThen {k : State → Flow} (hk : CtrlBlind k) (v : Option Byte) (a : Flow) :
    (a.map (withCtrl v)).andThen k = (a.andThen k).map (withCtrl v) := by
  cases a with
  | going s => exact hk v s
  | raised s => rfl

theorem CtrlBlind.andThen {f k : State → Flow} (hf : CtrlBlind f) (hk : CtrlBlind k) :
    CtrlBlind fun s => (f s).andThen k := fun v s =>
  (congrArg (Flow.andThen · k) (hf v s)).trans (hk.map_andThen v (f s))

theorem ctrlBlind_consume : CtrlBlind consume := fun v s => by
  rcases consume_cases s with ⟨hl, e⟩ | ⟨hl, e⟩
  · rw [e, consume_of_lt (s := withCtrl v s) hl]; rfl
  · rw [e, consume_of_end (s := withCtrl v s) hl]; rfl

theorem ctrlBlind_storePayloadByte (bank : Byte) (off : BitVec 5) (w : Byte) :
    CtrlBlind (storePayloadByte bank off w) := fun v s => by
  have hwrite : ∀ l, imgWrite l w (withCtrl v s) = withCtrl v (imgWrite l w s) := fun l => by
    unfold imgWrite; split <;> rfl
  cases hl : payloadLoc bank off s.idx.toNat with
  | none => rw [storePayloadByte_of_none hl, storePayloadByte_of_none (s := withCtrl v s) hl]; rfl
  | some l => rw [storePayloadByte_of_some hl, storePayloadByte_of_some (s := withCtrl v s) hl, hwrite]; rfl

theorem ctrlBlind_payloadLoop (bank : Byte) (off : BitVec 5) (vs : List Byte) :
    CtrlBlind (payloadLoop bank off vs) := by
  induction vs with
  | nil => exact fun _ _ => rfl
  | cons w ws ih => exact (ctrlBlind_consume.andThen (ctrlBlind_storePayloadByte bank off w)).andThen ih

theorem ctrlBlind_trailerTerm (term : Byte) : CtrlBlind (trailerTerm term) :=
  ctrlBlind_consume.andThen fun v s => by split <;> rfl

theorem ctrlBlind_trailerCrc (crc : BitVec 16) : CtrlBlind (trailerCrc crc) :=
  have hlatch : CtrlBlind fun s => (consume s).thenDo
      (latchCrc ((foldByte (foldByte 0 (byteOf crc 1)) (byteOf crc 0)).setWidth 16)) :=
    ctrlBlind_consume.andThen fun _ _ => rfl
  ctrlBlind_consume.andThen fun v s => hlatch v (setAcc (foldByte 0 (byteOf crc 1)) s)

theorem ctrlBlind_trailerOf (i : Instr) : CtrlBlind (trailerOf i) := by
  cases i with
  | hdr => exact fun _ _ => rfl
  | recTL => exact ctrlBlind_trailerTerm _
  | recTC => exact ctrlBlind_trailerTerm _
  | recCL => exact ctrlBlind_trailerCrc _
  | recCC => exact ctrlBlind_trailerCrc _

/-- Once the control byte is there, `PREFIX` with another one differs in `CTRL` alone. -/
theorem recordHead_withCtrl {s : State} (h : s.pos < s.stream.length) (c c' bank : Byte) (len : Nat) :
    recordHead c' bank len s = (recordHead c bank len s).map (withCtrl (some c')) := by
  rcases recordHead_cases c bank len s with ⟨hl, -⟩ | ⟨hl, e⟩ | ⟨hl, e⟩ | ⟨hl, e⟩
  · omega
  · rw [e, recordHead_end1 hl]; rfl
  · rw [e, recordHead_end2 hl]; rfl
  · rw [e, recordHead_going hl]; rfl

/-- A record once its fields are known: `PREFIX`, payload, trailer, final phase (R132–R135). -/
def recordFlow (c bank : Byte) (off : BitVec 5) (payload : List Byte) (trailer : State → Flow) (s : State) : Flow :=
  ((recordBody c bank off payload s).andThen trailer).thenDo (setPhase (nextPhase c))

/-- A record with another control byte that leads on to the same phase differs in `CTRL` alone. -/
theorem recordFlow_withCtrl {s : State} {c c' : Byte} (h : s.pos < s.stream.length) (hn : nextPhase c' = nextPhase c)
    (bank : Byte) (off : BitVec 5) (payload : List Byte) {trailer : State → Flow} (ht : CtrlBlind trailer) :
    recordFlow c' bank off payload trailer s =
      (recordFlow c bank off payload trailer s).map (withCtrl (some c')) := by
  have hphase : CtrlBlind fun u => .going (setPhase (nextPhase c) u) := fun _ _ => rfl
  rw [recordFlow, recordBody, recordHead_withCtrl h c c', (ctrlBlind_payloadLoop bank off payload).map_andThen,
    ht.map_andThen, Flow.thenDo, hn, hphase.map_andThen]
  rfl

theorem recordFlow_of_end {s : State} (h : s.stream.length ≤ s.pos) (c bank : Byte) (off : BitVec 5)
    (payload : List Byte) (trailer : State → Flow) :
    recordFlow c bank off payload trailer s = .raised (raise .unexpectedEnd s) := by
  rw [recordFlow, recordBody, recordHead_end0 h]; rfl

theorem ctrlByte_setWidth7 (k u : Bool) (off : BitVec 5) :
    (ctrlByte false k u off).setWidth 7 = (ctrlByte true k u off).setWidth 7 := by
  revert k u off; decide

/-- Two records that differ in bit 7 of their control bytes do the same but for `CTRL[7]`, which keeps it (R82). -/
theorem exec_record_bit7 {s : State} (hp : s.phase = .ctrl) {i i' : Instr} {k u : Bool} {off : BitVec 5} {bank : Byte}
    {payload : List Byte} (h : recordFields i = some ⟨ctrlByte false k u off, off, bank, payload⟩)
    (h' : recordFields i' = some ⟨ctrlByte true k u off, off, bank, payload⟩) (ht : trailerOf i' = trailerOf i) :
    ∃ t t', exec i s = .next t ∧ exec i' s = .next t' ∧ { t' with ctrl := t.ctrl } = t ∧
      (s.pos < s.stream.length → ∃ c c', t.ctrl = some c ∧ t'.ctrl = some c' ∧
        ctrlIgnored c = false ∧ ctrlIgnored c' = true ∧ c.setWidth 7 = c'.setWidth 7) := by
  have hi : exec i s = .next (recordFlow (ctrlByte false k u off) bank off payload (trailerOf i) s).state :=
    exec_record_next h hp
  have hi' : exec i' s = .next (recordFlow (ctrlByte true k u off) bank off payload (trailerOf i) s).state :=
    ht ▸ exec_record_next h' hp
  refine ⟨_, _, hi, hi', ?_⟩
  rcases Nat.lt_or_ge s.pos s.stream.length with hl | hl
  · have hn : nextPhase (ctrlByte true k u off) = nextPhase (ctrlByte false k u off) := by
      simp only [nextPhase, ctrlContinues_ctrlByte]
    have hself := congrArg Flow.state (recordFlow_withCtrl hl rfl bank off payload (ctrlBlind_trailerOf i)
      (c := ctrlByte false k u off))
    rw [map_state] at hself
    rw [recordFlow_withCtrl hl hn bank off payload (ctrlBlind_trailerOf i), map_state]
    exact ⟨rfl, fun _ => ⟨_, _, congrArg State.ctrl hself, rfl, ctrlIgnored_ctrlByte .., ctrlIgnored_ctrlByte ..,
      ctrlByte_setWidth7 k u off⟩⟩
  · rw [recordFlow_of_end hl, recordFlow_of_end hl]
    exact ⟨rfl, fun hlt => absurd hlt (Nat.not_lt.2 hl)⟩

/-- Settles O26: `HDR` does not use its reserved byte, and no part of a record reads bit 7. -/
theorem reservedBitsHaveNoEffect : Obligations.ReservedBitsHaveNoEffect := by
  unfold Obligations.ReservedBitsHaveNoEffect
  refine ⟨fun _ _ _ _ _ => rfl, fun s off b p term crc f hf hp => ?_⟩
  rcases hf with rfl | rfl | rfl | rfl
  · exact exec_record_bit7 hp rfl rfl rfl
  · exact exec_record_bit7 hp rfl rfl rfl
  · exact exec_record_bit7 hp rfl rfl rfl
  · exact exec_record_bit7 hp rfl rfl rfl

/-! ### The model's own stops -/

/-- A frame form outside its context is refused (log entry 5). -/
theorem exec_out_of_context {i : Instr} {s : State} (h : s.phase.context ≠ some (frameContext i)) :
    exec i s = .refused .outOfContext := by
  rcases header_or_record i with ⟨d, a, r, rfl⟩ | ⟨r, hr⟩
  · exact (inContext_of_ne (c := .firstFrame) h : execHdr d a r s = _)
  · rw [exec_record hr, inContext_of_ne (frameContext_record hr ▸ h)]

/-- Settles O29: the context, the latch and the phase that each stop looks at. -/
theorem modelStopsByName : Obligations.ModelStopsByName := by
  unfold Obligations.ModelStopsByName
  have hread : ∀ s : State, s.pos < s.stream.length → s.phase.running = true →
      byteStep s = onByte s.phase (s.stream.getD s.pos 0) (advance s) := fun s hl hr =>
    byteStep_of_byte hr (by simp [List.getD_eq_getElem?_getD, hl])
  refine ⟨fun i s => exec_out_of_context, fun s hp hc hl => ?_, fun s hp hlatch hl => ?_, fun S s hr => ?_⟩
  · rcases hp with hp | hp | hp <;> rw [hread s hl (by rw [hp]; rfl), hp] <;>
      simp only [onByte, advance_ctrl, hc]
  · rw [hread s hl (by rw [hp]; rfl), hp]
    rcases hlatch with hb | hn
    · simp only [onByte, advance_bank, hb]; cases (advance s).ctrl <;> rfl
    · simp only [onByte, advance_count, hn]; cases (advance s).ctrl <;> cases (advance s).bank <;> rfl
  · rw [startEvent, Phase.terminal, hr]; rfl

end Sys2Proof.Machine

namespace Sys2Proof.Machine

/-! ### Truncated streams (R103) -/

/-- A byte step that reads a byte before the cut reads it of the truncated stream as well. -/
theorem byteStep_withLess {v : Byte} {s t : State} {m : Nat} (hv : s.stream[s.pos]? = some v) (hc : Consumed v s t)
    (hm : s.pos < m) :
    byteStep (withStream (s.stream.take m) s) = .next (withStream (t.stream.take m) t) := by
  rw [hc.cursor.2]
  exact byteStep_of_consumed ((List.getElem?_take_of_lt hm).trans hv) (hc.withOtherStream _)

/-- A byte step at the cut finds no byte (R161). -/
theorem byteStep_at_cut {s : State} (hr : s.phase.running = true) :
    byteStep (withStream (s.stream.take s.pos) s) =
      .next (raise .unexpectedEnd (withStream (s.stream.take s.pos) s)) :=
  byteStep_of_end (s := withStream (s.stream.take s.pos) s) hr (List.length_take_le _ _)

/-- A run of byte steps is its first step and a run from there. -/
theorem byteRun_succ_next {s t : State} {k : Nat} (h : byteRun (k + 1) s = .next t) :
    ∃ u, byteStep s = .next u ∧ byteRun k u = .next t := by
  rw [byteRun] at h
  cases hs : byteStep s with
  | next u => rw [hs] at h; exact ⟨u, rfl, h⟩
  | fault f => rw [hs] at h; cases h
  | refused f => rw [hs] at h; cases h

theorem eq_of_byteRun_terminal {s t : State} {k : Nat} (hr : s.phase.running = false) (h : byteRun k s = .next t) :
    t = s := by
  have hstay := byteRun_of_terminal hr k
  cases hstay.symm.trans h
  rfl

/-- Where a run has read more than `d` bytes, however it ended, the run on the stream cut after `d` of them reads these
and then raises `UnexpectedEnd`. -/
theorem byteRun_truncated {s t : State} (k : Nat) (h : byteRun k s = .next t) {d : Nat} (hd : s.pos + d < t.pos) :
    ∃ u, byteRun (d + 1) (withStream (s.stream.take (s.pos + d)) s) = .next u ∧
      u.phase = .err ∧ u.err = .unexpectedEnd ∧ u.pos = s.pos + d := by
  induction k generalizing s d with
  | zero => cases h; omega
  | succ k ih =>
    obtain ⟨u, hu, hrun⟩ := byteRun_succ_next h
    rcases byteStep_next hu with ⟨hr, rfl⟩ | ⟨-, -, rfl⟩ | ⟨v, hv, -, hc⟩
    · rw [eq_of_byteRun_terminal hr hrun] at hd
      omega
    · rw [eq_of_byteRun_terminal rfl hrun, raise_pos] at hd
      omega
    · have hpos := hc.cursor.1
      cases d with
      | zero =>
        rw [Nat.add_zero s.pos, byteRun, byteStep_at_cut hc.running]
        exact ⟨_, rfl, rfl, rfl, rfl⟩
      | succ d =>
        have hcut : s.pos + (d + 1) = u.pos + d := by omega
        rw [hcut] at hd ⊢
        rw [byteRun, byteStep_withLess hv hc (by omega)]
        exact ih hrun hd

/-- Settles O58: the start state's cursor is at 0, so the stream cut after `m` bytes is its first `m` bytes. -/
theorem truncationGivesUnexpectedEnd : Obligations.TruncationGivesUnexpectedEnd := by
  unfold Obligations.TruncationGivesUnexpectedEnd
  intro S k t h _ m hm
  have hzero : (startState S).pos + m = m := Nat.zero_add m
  have hcut := byteRun_truncated k h (d := m) (by rwa [hzero])
  rwa [hzero] at hcut

/-! ### `next()` (R100) -/

/-- No rule for a byte that has been read raises `UnexpectedEnd` (R162–R164). -/
theorem Consumed.err_ne_unexpectedEnd {v : Byte} {s t : State} (h : Consumed v s t) (he : s.err = .none) :
    t.err ≠ .unexpectedEnd := by
  cases h <;> simp [he]

/-- Settles O3: the two answers of `next()`, and the one branch of a byte step that raises `UnexpectedEnd`. -/
theorem nextReadsOneByteOrRaises : Obligations.NextReadsOneByteOrRaises := by
  unfold Obligations.NextReadsOneByteOrRaises
  refine fun s => ⟨fun h => next_of_byte (List.getElem?_eq_getElem h), next_of_end, byteStep_of_end,
    fun he hl t ht => ?_⟩
  rcases byteStep_next ht with ⟨-, rfl⟩ | ⟨-, hend, -⟩ | ⟨v, -, -, hc⟩
  · rw [he]; nofun
  · exact absurd hl (Nat.not_lt.2 hend)
  · exact hc.err_ne_unexpectedEnd he

/-! ### `next_n` (R101) and frames cut short -/

/-- Where all its bytes are there, `next_n` delivers their fold; the partial value is in `ACC`. -/
theorem nextN_going (deliver : BitVec 32 → State → State) (acc : BitVec 32) (v : Byte) (vs : List Byte) {s : State}
    (h : s.pos + (vs.length + 1) ≤ s.stream.length) :
    ∃ a, nextN deliver acc (v :: vs) s =
      .going (deliver ((v :: vs).foldl foldByte acc) { s with pos := s.pos + (vs.length + 1), acc := a }) := by
  induction vs generalizing acc v s with
  | nil =>
    rw [nextN_one, consume_of_lt h]
    exact ⟨s.acc, rfl⟩
  | cons w vs ih =>
    rw [List.length_cons] at h
    rw [nextN_more, consume_of_lt (by omega), going_andThen]
    obtain ⟨a, ha⟩ := ih (foldByte acc v) w (s := setAcc (foldByte acc v) (advance s)) (by simp; omega)
    have hpos : (advance s).pos + (vs.length + 1) = s.pos + (vs.length + 1 + 1) := by simp; omega
    refine ⟨a, ha.trans ?_⟩
    rw [setAcc_pos, hpos]
    rfl

theorem nextN_of_end (deliver : BitVec 32 → State → State) (acc : BitVec 32) (v : Byte) (vs : List Byte) {s : State}
    (h : s.stream.length ≤ s.pos) : nextN deliver acc (v :: vs) s = .raised (raise .unexpectedEnd s) := by
  cases vs with
  | nil => rw [nextN_one, consume_of_end h, raised_thenDo]
  | cons w vs => rw [nextN_more, consume_of_end h, raised_andThen]

/-- Where one of its bytes is missing, `next_n` delivers nothing and ends at the end of the stream (R101 a, b). -/
theorem nextN_end (deliver : BitVec 32 → State → State) (acc : BitVec 32) {vs : List Byte} {s : State}
    (h : s.pos ≤ s.stream.length) (hshort : s.stream.length < s.pos + vs.length) :
    ∃ a, nextN deliver acc vs s = .raised (raise .unexpectedEnd { s with pos := s.stream.length, acc := a }) := by
  induction vs generalizing acc s with
  | nil => rw [List.length_nil] at hshort; omega
  | cons v vs ih =>
    rcases h.eq_or_lt with hend | hlt
    · exact ⟨s.acc, by rw [nextN_of_end _ _ _ _ hend.ge, ← hend]⟩
    · cases vs with
      | nil => rw [List.length_singleton] at hshort; omega
      | cons w vs =>
        rw [nextN_more, consume_of_lt hlt, going_andThen]
        exact ih (foldByte acc v) (s := setAcc (foldByte acc v) (advance s)) hlt (by simp at hshort ⊢; omega)

/-- Settles O17, by the operand of `HDR` in which the stream ends: the SYNC byte, the device ID, the address field or
the reserved byte. -/
theorem hdrCutShort : Obligations.HdrCutShort := by
  unfold Obligations.HdrCutShort
  intro s devid addr rsvd hp hpos hshort
  refine ⟨_, by rw [exec, execHdr, inContext_of_eq ((context_firstFrame_iff _).2 hp)], ?_⟩
  rcases hpos.eq_or_lt with hend | hlt
  · rw [consume_of_end hend.ge, if_neg (by omega), if_neg (by omega), ← hend]
    rfl
  rw [consume_of_lt hlt, going_andThen]
  rcases Nat.lt_or_ge s.stream.length (s.pos + 5) with hid | hid
  · obtain ⟨a, ha⟩ := nextN_end latchDevid 0 (s := advance s)
      (vs := [byteOf devid 3, byteOf devid 2, byteOf devid 1, byteOf devid 0]) hlt (by simp; omega)
    rw [ha, if_neg (by omega), if_neg (by omega)]
    rfl
  · obtain ⟨a, ha⟩ := nextN_going latchDevid 0 (byteOf devid 3) [byteOf devid 2, byteOf devid 1, byteOf devid 0]
      (s := advance s) (by simp; omega)
    have hfold : [byteOf devid 3, byteOf devid 2, byteOf devid 1, byteOf devid 0].foldl foldByte 0 = devid :=
      foldByte_word32 devid
    rw [ha, hfold, going_andThen, if_pos hid]
    rcases hid.eq_or_lt with haddr | haddr
    · rw [consume_of_end (by simp; omega), if_neg (by omega), ← haddr]
      rfl
    · rw [consume_of_lt (by simp; omega), going_thenDo, going_andThen, consume_of_end (by simp; omega),
        if_pos (by omega), show s.stream.length = s.pos + 6 by omega]
      rfl

/-- A payload byte that is missing is not resolved (R131, R167). -/
theorem payloadLoop_end {bank : Byte} {off : BitVec 5} {vs : List Byte} {s : State} (hvs : vs ≠ [])
    (h : s.stream.length ≤ s.pos) : payloadLoop bank off vs s = .raised (raise .unexpectedEnd s) := by
  cases vs with
  | nil => contradiction
  | cons v vs => rw [payloadLoop_cons, consume_of_end h]; rfl

/-- A trailer that is cut off, in either form, changes no more than the cursor and `ACC` (R150, R151). -/
theorem trailerOf_end {i : Instr} {r : RecordFields} (h : recordFields i = some r) {s : State}
    (hpos : s.pos ≤ s.stream.length)
    (hshort : s.stream.length + (3 + r.payload.length) < s.pos + frameLength i) :
    ∃ a, trailerOf i s = .raised (raise .unexpectedEnd { s with pos := s.stream.length, acc := a }) := by
  have hterm (term : Byte) (hend : s.stream.length ≤ s.pos) :
      ∃ a, trailerTerm term s = .raised (raise .unexpectedEnd { s with pos := s.stream.length, acc := a }) :=
    ⟨s.acc, by rw [trailerTerm_of_end hend, le_antisymm hend hpos]⟩
  cases i with
  | hdr => cases h
  | recTL => cases h; exact hterm _ (by simp only [frameLength] at hshort; omega)
  | recTC => cases h; exact hterm _ (by simp only [frameLength] at hshort; omega)
  | recCL => cases h; exact nextN_end _ _ hpos (by simp [frameLength] at hshort ⊢; omega)
  | recCC => cases h; exact nextN_end _ _ hpos (by simp [frameLength] at hshort ⊢; omega)

/-- A record that ends in its payload or its trailer ends with the payload bytes that were there taken (R131). -/
theorem exec_record_cut {i : Instr} {r : RecordFields} (h : recordFields i = some r) {s : State} {n : Nat}
    (hp : s.phase = .ctrl) (hlen : r.payload.length ≤ 256) (hpos : s.pos + 3 ≤ s.stream.length)
    (hshort : s.stream.length < s.pos + frameLength i)
    (hn : n = min (s.stream.length - s.pos - 3) r.payload.length) (hval : PayloadValid r n) :
    ∃ t a, exec i s = .next (raise .unexpectedEnd { t with pos := s.stream.length, acc := a }) ∧
      RecordEffect r n s t ∧ t.crc = s.crc := by
  obtain ⟨t, ht, heff, htpos, -, -, hcrc, -⟩ := recordBody_taken (s := s) (n := n) (by omega) hlen (by omega) hval
  have hcut : ∃ a, (payloadLoop r.bank r.off (r.payload.drop n) t).andThen (trailerOf i) =
      .raised (raise .unexpectedEnd { t with pos := t.stream.length, acc := a }) := by
    rcases Nat.lt_or_ge n r.payload.length with hin | hall
    · have hend : t.stream.length = t.pos := by rw [heff.stream]; omega
      exact ⟨t.acc, by rw [payloadLoop_end (by simpa using hin) hend.le, raised_andThen, hend]⟩
    · rw [List.drop_of_length_le hall, payloadLoop_nil, going_andThen]
      exact trailerOf_end h (by rw [heff.stream]; omega) (by rw [heff.stream]; omega)
  obtain ⟨a, ha⟩ := hcut
  refine ⟨t, a, ?_, heff, hcrc⟩
  rw [exec_record_next h hp, ht, ha, heff.stream]
  rfl

/-- `PREFIX` where one of its three bytes is missing: those that are there are latched (R132). -/
theorem recordHead_short {c bank : Byte} {len : Nat} {s : State} (hpos : s.pos ≤ s.stream.length)
    (hshort : s.stream.length < s.pos + 3) :
    recordHead c bank len s = .raised (raise .unexpectedEnd
      { s with
        pos := s.stream.length,
        ctrl := if s.pos + 1 ≤ s.stream.length then some c else s.ctrl,
        bank := if s.pos + 2 ≤ s.stream.length then some bank else s.bank }) := by
  rcases recordHead_cases c bank len s with ⟨hl, e⟩ | ⟨hl, e⟩ | ⟨hl, e⟩ | ⟨hl, -⟩
  · rw [e, if_neg (by omega), if_neg (by omega), ← le_antisymm hpos hl]
  · rw [e, if_pos (by omega), if_neg (by omega), ← hl]
  · rw [e, if_pos (by omega), if_pos (by omega), ← hl]
  · omega

/-- Settles O24, by whether the stream ends in `PREFIX` or behind it. -/
theorem recordCutShort : Obligations.RecordCutShort := by
  unfold Obligations.RecordCutShort
  intro s i r h hp hlen hpos hshort hval
  rcases Nat.lt_or_ge s.stream.length (s.pos + 3) with hl | hl
  · have hno : ¬ s.pos + 3 ≤ s.stream.length := Nat.not_le.2 hl
    have hzero : min (s.stream.length - s.pos - 3) r.payload.length = 0 := by omega
    have hstored (t : State) (ht : ∀ l, imgRead t l = imgRead s l) : PayloadStored r 0 s t :=
      ⟨fun _ _ hi => absurd hi (Nat.not_lt_zero _), fun l _ => ht l⟩
    rw [exec_record_next h hp, recordBody, recordHead_short hpos hl, hzero, if_neg hno, if_neg hno]
    exact ⟨_, rfl, rfl, rfl, rfl, rfl, rfl, rfl, rfl, hstored _ fun _ => rfl, rfl, rfl, rfl, rfl⟩
  · obtain ⟨t, a, ht, heff, hcrc⟩ := exec_record_cut h hp hlen hl hshort rfl hval
    rw [if_pos (by omega), if_pos (by omega), if_pos hl, if_pos hl]
    exact ⟨_, ht, rfl, rfl, rfl, heff.ctrl, heff.bank, heff.count, heff.idx,
      ⟨heff.stored.written, heff.stored.others⟩, heff.stream, heff.devid, heff.addr, hcrc⟩

end Sys2Proof.Machine

namespace Sys2Proof.Machine

/-! ### The resolver and the region of a payload (R110 to R116) -/

@[simp] theorem resolve_byte (b o : Nat) : (resolve b o).byte = Fin.ofNat 32 o := by
  unfold resolve
  split <;> rfl

/-- `RESOLVE` depends on its arguments through the bank sum `b'` and the remainder alone (R110). -/
theorem resolve_congr {b o c p : Nat} (hsum : b + o / 32 = c + p / 32) (hbyte : o % 32 = p % 32) :
    resolve b o = resolve c p := by
  have hfin : Fin.ofNat 32 o = Fin.ofNat 32 p := Fin.ext hbyte
  by_cases h : b + o / 32 ≤ 10
  · rw [resolve_sram h, resolve_sram (hsum ▸ h), hsum, hfin]
  · rw [resolve_lut h, resolve_lut (hsum ▸ h), hsum, hfin]

theorem valid_iff (region : Region) (k : Int) : valid region k = true ↔ 0 ≤ k ∧ k ≤ 10 := by
  simp [valid]

/-- The two ranges of `b'` that `VALID` accepts (R111, R116). -/
theorem valid_resolve_iff (b o : Nat) : valid (resolve b o).region (resolve b o).bank = true ↔
    b + o / 32 ≤ 10 ∨ (16 ≤ b + o / 32 ∧ b + o / 32 ≤ 26) := by
  rw [valid_iff]
  by_cases h : b + o / 32 ≤ 10
  · simp only [resolve_sram h]; omega
  · simp only [resolve_lut h]; omega

theorem locate_sram {b o : Nat} (h : b + o / 32 ≤ 10) :
    locate b o = some ⟨.sram, Fin.ofNat 11 (b + o / 32), Fin.ofNat 32 o⟩ := by
  rw [locate_eq, if_pos h]

theorem locate_lut {b o : Nat} (h : 16 ≤ b + o / 32) (h' : b + o / 32 ≤ 26) :
    locate b o = some ⟨.lut, Fin.ofNat 11 (b + o / 32 - 16), Fin.ofNat 32 o⟩ := by
  rw [locate_eq, if_neg (by omega), if_pos ⟨h, h'⟩]

theorem locate_eq_none_iff (b o : Nat) :
    locate b o = none ↔ (11 ≤ b + o / 32 ∧ b + o / 32 ≤ 15) ∨ 27 ≤ b + o / 32 := by
  rw [locate, ite_eq_right_iff, imp_iff_not (by simp), valid_resolve_iff]
  omega

/-- Settles O40, by the branch of `RESOLVE` and the ranges of `b'`. -/
theorem resolverClassification : Obligations.ResolverClassification := by
  unfold Obligations.ResolverClassification
  rintro b o b' hb ho rfl
  refine ⟨by omega, by rw [resolve_byte]; rfl, fun h => ?_, fun h => ?_,
    fun h h' => (locate_eq_none_iff b o).2 (.inl ⟨h, h'⟩), fun h h' => ?_,
    fun h => (locate_eq_none_iff b o).2 (.inr h), valid_resolve_iff b o⟩
  · rw [resolve_sram h, locate_sram h]
    exact ⟨rfl, rfl, _, rfl, rfl, Nat.mod_eq_of_lt (by omega), rfl⟩
  · rw [resolve_lut (by omega)]
    exact ⟨rfl, rfl⟩
  · rw [locate_lut h h']
    exact ⟨_, rfl, rfl, Nat.mod_eq_of_lt (by omega), rfl⟩

/-- Settles O41: both sides have the same bank sum and the same remainder. -/
theorem offsetsCarryIntoBanks : Obligations.OffsetsCarryIntoBanks := by
  unfold Obligations.OffsetsCarryIntoBanks
  intro b q r _
  exact resolve_congr (by omega) (by omega)

/-- Quotient and remainder by 32 of a nine-bit offset are its upper four and lower five bits (R113). -/
theorem nineBit_fields {o : Nat} (h : o < 512) :
    ((BitVec.ofNat 9 o).extractLsb' 5 4).toNat = o / 32 ∧ ((BitVec.ofNat 9 o).extractLsb' 0 5).toNat = o % 32 := by
  simp only [BitVec.extractLsb'_toNat, BitVec.toNat_ofNat, Nat.shiftRight_eq_div_pow]
  omega

/-- Settles O42: a five-bit offset and an eight-bit index add up to less than 512. -/
theorem resolverNeedsNineBits : Obligations.ResolverNeedsNineBits := by
  unfold Obligations.ResolverNeedsNineBits
  intro off b i hi
  have hoff := off.isLt
  have hb := b.isLt
  have ho : effectiveOffset off i ≤ 286 := by unfold effectiveOffset; omega
  exact ⟨ho, by omega, nineBit_fields (by omega)⟩

/-- Between a payload byte in the SRAM-like region and one in the LUT-like region stands the first byte of bank `0x0B`,
which has no location (R112). -/
theorem payloadLoc_gap {bank : Byte} {off : BitVec 5} {i j : Nat}
    (hi : bank.toNat + effectiveOffset off i / 32 ≤ 10) (hj : 16 ≤ bank.toNat + effectiveOffset off j / 32) :
    ∃ k < j, payloadLoc bank off k = none := by
  unfold effectiveOffset at hi hj
  refine ⟨32 * (11 - bank.toNat) - off.toNat, by omega, (locate_eq_none_iff _ _).2 (.inl ?_)⟩
  unfold effectiveOffset
  omega

/-- Settles O43: the two bytes lie in one region because no payload passes the gap between the regions, and in
different cells because the resolver is injective along a payload. -/
theorem payloadStaysInOneRegion : Obligations.PayloadStaysInOneRegion := by
  unfold Obligations.PayloadStaysInOneRegion
  intro bank off n hval i j l m hin hjn hl hm
  have noGap {k p : Nat} (hpn : p < n) (hk : bank.toNat + effectiveOffset off k / 32 ≤ 10)
      (hp : 16 ≤ bank.toNat + effectiveOffset off p / 32) : False := by
    obtain ⟨g, hgp, hg⟩ := payloadLoc_gap hk hp
    simpa [hg] using hval g (hgp.trans hpn)
  refine ⟨?_, fun hne he => hne (payloadLoc_injective hl (he ▸ hm))⟩
  rcases locate_some hl with ⟨hlr, hi⟩ | ⟨hlr, hi, -⟩ <;> rcases locate_some hm with ⟨hmr, hj⟩ | ⟨hmr, hj, -⟩
  · rw [hlr, hmr]
  · exact (noGap hjn hi hj).elim
  · exact (noGap hin hj hi).elim
  · rw [hlr, hmr]

end Sys2Proof.Machine

namespace Sys2Proof.Machine

/-! ### Runs of both granularities (D21, R127, R140) -/

/-- Settles O47: the header's phases read the operands of `HDR` one by one. -/
theorem headerFrameIsItsByteSteps : Obligations.HeaderFrameIsItsByteSteps := by
  unfold Obligations.HeaderFrameIsItsByteSteps
  exact fun _ hp => (step_eq_byteFrame_of_sync hp).symm

/-- The machine with the step `f`: one notion of run for frame steps and for byte steps. -/
abbrev machineOf (f : State → Host.Outcome State Fault Refusal) : Host.Core := ⟨State, Fault, Refusal, f, State.reset⟩

theorem machineOf_step (f : State → Host.Outcome State Fault Refusal) (s : State) : (machineOf f).step s = f s := rfl

theorem byteRun_eq_run (k : Nat) (s : State) : byteRun k s = (machineOf byteStep).run k s := by
  induction k generalizing s with
  | zero => rfl
  | succ k ih =>
    rw [byteRun, Host.Core.run, machineOf_step]
    cases byteStep s with
    | next t => exact ih t
    | fault r => rfl
    | refused r => rfl

theorem run_succ_of_next {f : State → Host.Outcome State Fault Refusal} {s t : State} (h : f s = .next t) (k : Nat) :
    (machineOf f).run (k + 1) s = (machineOf f).run k t := by
  rw [Host.Core.run, machineOf_step, h]

/-- What every byte step keeps, runs of byte steps keep. -/
theorem byteRun_keeps {P : State → Prop} (hb : ∀ s t, P s → byteStep s = .next t → P t) (k : Nat) {s t : State}
    (hs : P s) (h : byteRun k s = .next t) : P t := by
  induction k generalizing s with
  | zero => cases h; exact hs
  | succ k ih =>
    obtain ⟨u, hu, hrun⟩ := byteRun_succ_next h
    exact ih (hb s u hs hu) hrun

theorem byteRun_pos_le {s t : State} (k : Nat) (h : byteRun k s = .next t) : s.pos ≤ t.pos :=
  byteRun_keeps (P := fun u => s.pos ≤ u.pos) (fun _ _ hle hu => hle.trans (byteStep_stream_pos hu).2) k le_rfl h

/-- At least one byte step: the run is over or a byte has been read. -/
theorem byteRun_succ_progress {s t : State} {k : Nat} (h : byteRun (k + 1) s = .next t) :
    t.phase.running = false ∨ s.pos < t.pos := by
  obtain ⟨u, hu, hrun⟩ := byteRun_succ_next h
  rcases byteStep_next hu with ⟨hr, rfl⟩ | ⟨-, -, rfl⟩ | ⟨v, -, -, hc⟩
  · rw [eq_of_byteRun_terminal hr hrun]; exact .inl hr
  · rw [eq_of_byteRun_terminal rfl hrun]; exact .inl rfl
  · have hpos := hc.cursor.1
    have hle := byteRun_pos_le k hrun
    exact .inr (by omega)

/-- Each step of a machine that takes at least one byte step at a time ends the run or reads a byte, so one step more
than there are bytes left ends it (R194). -/
theorem run_reaches_terminal {f : State → Host.Outcome State Fault Refusal}
    (hf : ∀ s, Inv s → ∃ j t, f s = .next t ∧ byteRun (j + 1) s = .next t) (k : Nat) {s : State} (hi : Inv s)
    (hk : s.phase.running = false ∨ s.stream.length - s.pos < k) :
    ∃ j t, (machineOf f).run k s = .next t ∧ byteRun j s = .next t ∧ t.phase.running = false := by
  induction k generalizing s with
  | zero => exact ⟨0, s, rfl, rfl, hk.resolve_right (Nat.not_lt_zero _)⟩
  | succ k ih =>
    obtain ⟨i, u, hu, hi'⟩ := hf s hi
    have hiu : Inv u := byteRun_keeps (fun _ _ => byteStep_keeps_inv) _ hi hi'
    have hku : u.phase.running = false ∨ u.stream.length - u.pos < k := by
      rcases hk with hr | hk
      · rw [eq_of_byteRun_terminal hr hi']; exact .inl hr
      · refine (byteRun_succ_progress hi').imp_right fun hpos => ?_
        have hin := hiu.posInRange
        rw [byteRun_stream _ hi'] at hin ⊢
        omega
    obtain ⟨j, t, hrun, hj, ht⟩ := ih hiu hku
    exact ⟨i + 1 + j, t, (run_succ_of_next hu k).trans hrun, by rw [byteRun_add, hi']; exact hj, ht⟩

/-- Two runs of byte steps from one state that are both over have ended in the same state. -/
theorem byteRun_terminal_unique {s t t' : State} {j j' : Nat} (h : byteRun j s = .next t)
    (h' : byteRun j' s = .next t') (ht : t.phase.running = false) (ht' : t'.phase.running = false) : t = t' := by
  have hlong : ∀ {i u} d, byteRun i s = .next u → u.phase.running = false → byteRun (i + d) s = .next u :=
    fun d hi hu => by rw [byteRun_add, hi]; exact byteRun_of_terminal hu d
  have hsum := hlong j' h ht
  rw [Nat.add_comm, hlong j h' ht'] at hsum
  cases hsum
  rfl

theorem step_is_byteRun {s : State} (hi : Inv s) : ∃ j t, step s = .next t ∧ byteRun (j + 1) s = .next t := by
  obtain ⟨t, ht⟩ := (runsNeverStop s hi).1
  obtain ⟨k, hk⟩ := step_eq_byteFrame s
  obtain ⟨j, hj⟩ := byteFrame_run k s t (hk ▸ ht)
  exact ⟨j, t, ht, hj⟩

theorem byteStep_is_byteRun {s : State} (hi : Inv s) :
    ∃ j t, byteStep s = .next t ∧ byteRun (j + 1) s = .next t := by
  obtain ⟨t, ht⟩ := (runsNeverStop s hi).2
  exact ⟨0, t, ht, by rw [byteRun, ht]; rfl⟩

/-- Settles O49: both runs are runs of byte steps that are over, and such a run has one end. -/
theorem runsOfBothGranularitiesEndAlike : Obligations.RunsOfBothGranularitiesEndAlike := by
  unfold Obligations.RunsOfBothGranularitiesEndAlike
  intro s hi _
  obtain ⟨j, t, hrun, hj, ht⟩ := run_reaches_terminal (fun _ => step_is_byteRun) _ hi (.inr (Nat.lt_succ_self _))
  obtain ⟨j', t', hrun', hj', ht'⟩ :=
    run_reaches_terminal (fun _ => byteStep_is_byteRun) _ hi (.inr (Nat.lt_succ_self _))
  rw [byteRun_eq_run, hrun', ← byteRun_terminal_unique hj hj' ht ht']
  exact hrun

/-! ### The header frame (R120) -/

/-- Shifting the last folded byte out again (R101). -/
theorem foldByte_ushiftRight {acc : BitVec 32} (h : acc.toNat < 2 ^ 24) (v : Byte) : foldByte acc v >>> 8 = acc := by
  have hv := v.isLt
  apply BitVec.eq_of_toNat_eq
  rw [BitVec.toNat_ushiftRight, foldByte_toNat h, Nat.shiftRight_eq_div_pow]
  omega

/-- Three folded bytes leave room for a fourth (R123). -/
theorem foldByte_three_lt (a b c : Byte) : (foldByte (foldByte (foldByte 0 a) b) c).toNat < 2 ^ 24 := by
  have ha := a.isLt; have hb := b.isLt; have hc := c.isLt
  have h1 : (foldByte 0 a).toNat = a.toNat := by rw [foldByte_zero, toNat_setWidth32]
  have h2 := foldByte_toNat (acc := foldByte 0 a) (v := b) (by omega)
  rw [foldByte_toNat (by omega)]
  omega

/-- Settles O15: the three bytes left in `ACC` are the device ID without its last byte. -/
theorem hdrCompletes : Obligations.HdrCompletes := by
  unfold Obligations.HdrCompletes
  intro s devid addr rsvd hp h
  have hacc := foldByte_ushiftRight (foldByte_three_lt (byteOf devid 3) (byteOf devid 2) (byteOf devid 1))
    (byteOf devid 0)
  rw [foldByte_word32] at hacc
  rw [exec_hdr_complete hp h, ← hacc]

theorem fillAt_behind_cursor (s : State) (j : Nat) :
    fillAt (s.stream.drop (s.pos + 1)) j = s.stream.getD (s.pos + (j + 1)) 0 := by
  rw [fillAt, List.getD_eq_getElem?_getD, List.getElem?_drop, List.getD_eq_getElem?_getD, Nat.add_assoc,
    Nat.add_comm 1]

/-- Behind a SYNC byte the step is `HDR` on the six bytes that follow (R120). -/
theorem step_of_syncByte {s : State} (hp : s.phase = .sync) (hv : s.stream[s.pos]? = some Config.SYNC) :
    step s = exec (.hdr
      (bigEndian32 (s.stream.getD (s.pos + 1) 0) (s.stream.getD (s.pos + 2) 0) (s.stream.getD (s.pos + 3) 0)
        (s.stream.getD (s.pos + 4) 0))
      (s.stream.getD (s.pos + 5) 0) (s.stream.getD (s.pos + 6) 0)) s := by
  rw [step_of_frame ((context_firstFrame_iff _).2 hp) (by rw [drop_pos_of_byte hv, decode, if_pos rfl])]
  simp only [decodeHeader, fillAt_behind_cursor, Nat.reduceAdd]

/-- Settles O16, by the first byte and the number of bytes left: a frame that begins is `HDR` on the bytes that are
there, and the two errors of the first byte are those of the SYNC byte step. -/
theorem headerFrameRule : Obligations.HeaderFrameRule := by
  unfold Obligations.HeaderFrameRule
  intro s hp
  have hr : s.phase.running = true := by rw [hp]; rfl
  have hbyte (hl : s.pos < s.stream.length) : s.stream[s.pos]? = some (s.stream.getD (s.pos + 0) 0) := by
    simp [List.getD_eq_getElem?_getD, hl]
  refine ⟨fun hl => ?_, fun hl hne => ?_, fun hl hsync hshort => ?_, fun hsync h => ?_⟩
  · rw [step_eq_byteFrame_of_sync hp]
    exact byteFrame_of_boundary (byteStep_of_end hr hl) rfl _
  · rw [step_eq_byteFrame_of_sync hp]
    exact byteFrame_of_boundary (byteStep_of_consumed (hbyte hl) (.badSync hp hne)) rfl _
  · rw [step_of_syncByte hp ((hbyte hl).trans (congrArg some hsync))]
    exact hdrCutShort s _ _ _ hp hl.le hshort
  · rw [step_of_syncByte hp ((hbyte (by omega)).trans (congrArg some hsync)), hdrCompletes s _ _ _ hp h]
    exact ⟨_, rfl, rfl⟩

/-- What `HDR` writes at most, however it ends (R120, State written). -/
theorem exec_hdr_writes {s t : State} {devid : BitVec 32} {addr rsvd : Byte}
    (h : exec (.hdr devid addr rsvd) s = .next t) :
    ∃ p ph e d a x, t = { s with pos := p, phase := ph, err := e, devid := d, addr := a, acc := x } := by
  by_cases hp : s.phase = .sync
  swap
  · rw [exec_out_of_context fun hc => hp ((context_firstFrame_iff _).1 hc)] at h
    cases h
  rcases Nat.lt_or_ge s.stream.length (s.pos + 7) with hshort | hlong
  · rcases Nat.lt_or_ge s.stream.length s.pos with hout | hin
    · rw [exec, execHdr, inContext_of_eq ((context_firstFrame_iff _).2 hp), consume_of_end hout.le] at h
      cases h
      exact ⟨_, _, _, _, _, _, rfl⟩
    · obtain ⟨u, hu, he⟩ := hdrCutShort s devid addr rsvd hp hin hshort
      obtain rfl : u = t := Host.Outcome.next.inj (hu.symm.trans h)
      exact ⟨_, _, _, _, _, u.acc, congrArg (fun w : State => { w with acc := u.acc }) he⟩
  · rw [hdrCompletes s devid addr rsvd hp hlong] at h
    cases h
    exact ⟨_, _, _, _, _, _, rfl⟩

/-- Settles O18: `HDR` writes none of these fields. -/
theorem hdrFrame : Obligations.HdrFrame := by
  unfold Obligations.HdrFrame
  intro s t devid addr rsvd h
  obtain ⟨_, _, _, _, _, _, rfl⟩ := exec_hdr_writes h
  exact ⟨rfl, rfl, rfl, rfl, rfl, rfl, fun _ => rfl⟩

/-! ### The header's byte steps (R121–R126) -/

theorem LatchOrder.record_none {s : State} (ho : LatchOrder s) (hc : s.ctrl = none) :
    s.bank = none ∧ s.count = none ∧ s.crc = none ∧ s.sram = [] ∧ s.lut = [] := by
  have hb : s.bank = none := by simpa [hc] using ho.bank
  have hn : s.count = none := by simpa [hb] using ho.count
  have hx : s.crc = none := by simpa [hn] using ho.crc
  have himg : s.sram = [] ∧ s.lut = [] := by simpa [hn] using ho.image
  exact ⟨hb, hn, hx, himg⟩

/-- In `P_SYNC` a run has read nothing and holds nothing (R31). -/
theorem Inv.nothing_read {s : State} (hi : Inv s) (hp : s.phase = .sync) :
    s.pos = 0 ∧ s.devid = none ∧ s.addr = none ∧ s.ctrl = none ∧ s.bank = none ∧ s.count = none ∧ s.crc = none ∧
      ∀ l, imgRead s l = none := by
  have hn : s.phase.number = 0 := by rw [hp]; rfl
  have hc := hi.latches.recordBefore (by omega)
  obtain ⟨hb, hcount, hcrc, hsram, hlut⟩ := hi.order.record_none hc
  refine ⟨(hi.headerPos (by omega)).trans hn, hi.latches.devidBefore (by omega), hi.latches.addrBefore (by omega),
    hc, hb, hcount, hcrc, fun l => ?_⟩
  rw [imgRead, hsram, hlut]
  split <;> rfl

/-- Settles O30: the two rules of `P_SYNC`, which a run leaves with nothing latched. -/
theorem byteStepSync : Obligations.ByteStepSync := by
  unfold Obligations.ByteStepSync
  intro s v hp hv
  refine ⟨fun h => byteStep_of_consumed hv (.sync hp h), fun h => ⟨byteStep_of_consumed hv (.badSync hp h), fun hi => ?_⟩⟩
  obtain ⟨hpos, hlatches⟩ := hi.nothing_read hp
  exact ⟨by rw [hpos], hlatches⟩

/-- Settles O31: the rules of the first three ID phases; the bounds are the invariant of the state reached. -/
theorem byteStepDeviceIdFold : Obligations.ByteStepDeviceIdFold := by
  unfold Obligations.ByteStepDeviceIdFold
  intro s v hv
  refine ⟨fun hp => byteStep_of_consumed hv (.id0 hp), fun hp => ?_, fun hp => ?_⟩
  · have hstep := byteStep_of_consumed hv (.id1 hp)
    exact ⟨hstep, fun hi => (byteStep_keeps_inv hi hstep).accBounds.id2 rfl⟩
  · have hstep := byteStep_of_consumed hv (.id2 hp)
    exact ⟨hstep, fun hi => (byteStep_keeps_inv hi hstep).accBounds.id3 rfl⟩

/-- Settles O32: the rule of `P_ID3`, and every other rule leaves `DEVID`. -/
theorem byteStepDeviceIdLatch : Obligations.ByteStepDeviceIdLatch := by
  unfold Obligations.ByteStepDeviceIdLatch
  refine ⟨fun s v hp hv => ⟨byteStep_of_consumed hv (.id3 hp), fun hi => foldByte_toNat (hi.accBounds.id3 hp)⟩,
    fun s t h hp => ?_⟩
  rcases byteStep_next h with ⟨-, rfl⟩ | ⟨-, -, rfl⟩ | ⟨v, -, -, hc⟩
  · rfl
  · rfl
  · rw [hc.devid_eq, if_neg hp]

/-- Settles O33: the rules of `P_ADDR` and `P_RSVD`. -/
theorem byteStepAddressAndReserved : Obligations.ByteStepAddressAndReserved := by
  unfold Obligations.ByteStepAddressAndReserved
  exact fun _ _ hv => ⟨fun hp => byteStep_of_consumed hv (.addr hp), fun hp => byteStep_of_consumed hv (.rsvd hp)⟩

/-- Settles O14: the decoder on the spec's words. -/
theorem workedExamplesDecode : Obligations.WorkedExamplesDecode := by
  unfold Obligations.WorkedExamplesDecode
  exact ⟨rfl, rfl, rfl, rfl, rfl⟩

end Sys2Proof.Machine

namespace Sys2Proof.Machine

/-! ### The record frame is its byte steps (R140) -/

/-- Settles O48: the record's phases read `PREFIX`, the payload and the trailer one byte at a time. -/
theorem recordFrameIsItsByteSteps : Obligations.RecordFrameIsItsByteSteps := by
  unfold Obligations.RecordFrameIsItsByteSteps
  exact fun _ hp => (step_eq_byteFrame_of_ctrl hp).symm

/-! ### Records that complete (R131–R135) -/

/-- What a record has done to the latches and the image does not depend on the cursor, `PHASE`, `ERR`, `CRC` and
`ACC`. -/
theorem RecordEffect.withOtherRegisters {r : RecordFields} {n : Nat} {s t : State} (h : RecordEffect r n s t) (p : Nat)
    (ph : Phase) (e : Err) (c : Option (BitVec 16)) (a : BitVec 32) :
    RecordEffect r n s { t with pos := p, phase := ph, err := e, crc := c, acc := a } :=
  ⟨h.stream, h.devid, h.addr, h.ctrl, h.bank, h.count, h.idx, ⟨h.stored.written, h.stored.others⟩⟩

/-- A record whose `PREFIX` and `PAYLOAD` are there and valid comes down to its trailer, in the state that these two
leave. -/
theorem exec_record_to_trailer {i : Instr} {r : RecordFields} (h : recordFields i = some r) {s : State}
    (hp : s.phase = .ctrl) (hlen : r.payload.length ≤ 256) (hval : PayloadValid r r.payload.length)
    (hpos : s.pos + 3 + r.payload.length ≤ s.stream.length) :
    ∃ u, exec i s = .next ((trailerOf i u).thenDo (setPhase (nextPhase r.ctrl))).state ∧
      RecordEffect r r.payload.length s u ∧ u.pos = s.pos + 3 + r.payload.length ∧ u.err = s.err ∧ u.crc = s.crc ∧
      u.acc = s.acc := by
  obtain ⟨u, hu, heff, hupos, -, herr, hcrc, hacc⟩ := recordBody_going (s := s) hlen hpos hval
  exact ⟨u, by rw [exec_record_next h hp, hu, going_andThen], heff, hupos, herr, hcrc, hacc⟩

/-- A record without CRC completes where its terminator is right (R132, R133). -/
theorem exec_record_terminated {i : Instr} {r : RecordFields} (h : recordFields i = some r)
    (htr : trailerOf i = trailerTerm Config.TERM) {q : Phase} (hq : nextPhase r.ctrl = q) {s : State}
    (hp : s.phase = .ctrl) (hlen : r.payload.length ≤ 256) (hval : PayloadValid r r.payload.length)
    (hpos : s.pos + (4 + r.payload.length) ≤ s.stream.length) :
    ∃ t, exec i s = .next t ∧ RecordEffect r r.payload.length s t ∧ t.pos = s.pos + (4 + r.payload.length) ∧
      t.phase = q ∧ t.err = s.err ∧ t.crc = s.crc ∧ t.acc = s.acc := by
  obtain ⟨u, hu, heff, hupos, herr, hcrc, hacc⟩ := exec_record_to_trailer h hp hlen hval (by omega)
  rw [htr, trailerTerm_of_lt (by rw [heff.stream]; omega), if_pos rfl, hq] at hu
  exact ⟨_, hu, heff.withOtherRegisters .., by show u.pos + 1 = _; omega, rfl, herr, hcrc, hacc⟩

/-- A record with CRC completes whatever its CRC bytes are (R134, R135, R152). -/
theorem exec_record_crc {i : Instr} {r : RecordFields} (h : recordFields i = some r) {crc : BitVec 16}
    (htr : trailerOf i = trailerCrc crc) {q : Phase} (hq : nextPhase r.ctrl = q) {s : State}
    (hp : s.phase = .ctrl) (hlen : r.payload.length ≤ 256) (hval : PayloadValid r r.payload.length)
    (hpos : s.pos + (5 + r.payload.length) ≤ s.stream.length) :
    ∃ t, exec i s = .next t ∧ RecordEffect r r.payload.length s t ∧ t.pos = s.pos + (5 + r.payload.length) ∧
      t.phase = q ∧ t.err = s.err ∧ t.crc = some crc ∧ t.acc = (byteOf crc 1).setWidth 32 := by
  obtain ⟨u, hu, heff, hupos, herr, -, -⟩ := exec_record_to_trailer h hp hlen hval (by omega)
  rw [htr, trailerCrc_going (by rw [heff.stream]; omega), hq] at hu
  exact ⟨_, hu, heff.withOtherRegisters .., by show u.pos + 2 = _; omega, rfl, herr, rfl, rfl⟩

/-- `CONT` clear ends the decode (R156). -/
theorem nextPhase_of_last (x u : Bool) (off : BitVec 5) : nextPhase (ctrlByte x false u off) = .done := by
  simp [nextPhase]

/-- `CONT` set leads on to another record (R156). -/
theorem nextPhase_of_continued (x u : Bool) (off : BitVec 5) : nextPhase (ctrlByte x true u off) = .ctrl := by
  simp [nextPhase]

/-- Settles O20: both forms have the terminator trailer, and `CONT` tells their last phases apart. -/
theorem terminatorRecordsComplete : Obligations.TerminatorRecordsComplete := by
  unfold Obligations.TerminatorRecordsComplete
  intro s x off bank payload hp _ hlen hval hpos
  exact ⟨exec_record_terminated (i := .recTL x off bank payload Config.TERM) rfl rfl (nextPhase_of_last ..) hp hlen
      hval hpos,
    exec_record_terminated (i := .recTC x off bank payload Config.TERM) rfl rfl (nextPhase_of_continued ..) hp hlen
      hval hpos⟩

/-- Settles O21: both forms have the CRC trailer, and `CONT` tells their last phases apart. -/
theorem crcRecordsComplete : Obligations.CrcRecordsComplete := by
  unfold Obligations.CrcRecordsComplete
  intro s x off bank payload crc hp _ hlen hval hpos
  exact ⟨exec_record_crc (i := .recCL x off bank payload crc) rfl rfl (nextPhase_of_last ..) hp hlen hval hpos,
    exec_record_crc (i := .recCC x off bank payload crc) rfl rfl (nextPhase_of_continued ..) hp hlen hval hpos⟩

/-! ### Records that meet a bad bank (R164) -/

/-- A payload byte that is there and has no location is consumed, and `PAYLOAD` stops (R131). -/
theorem payloadLoop_badBank {bank : Byte} {off : BitVec 5} {vs : List Byte} {s : State} (hvs : vs ≠ [])
    (hpos : s.pos < s.stream.length) (hloc : payloadLoc bank off s.idx.toNat = none) :
    payloadLoop bank off vs s = .raised (raise .badBank (advance s)) := by
  cases vs with
  | nil => contradiction
  | cons v vs =>
    rw [payloadLoop_cons, consume_of_lt hpos, going_andThen, storePayloadByte_of_none (s := advance s) hloc,
      raised_andThen]

/-- Settles O22: the payload up to the byte without a location is stored, and `PAYLOAD` stops at that byte. -/
theorem recordStopsAtABadBank : Obligations.RecordStopsAtABadBank := by
  unfold Obligations.RecordStopsAtABadBank
  intro s i r n h hp hlen hn hval hloc hpos
  obtain ⟨u, hu, heff, hupos, -, -, hcrc, hacc⟩ := recordBody_taken (s := s) hn.le hlen hpos.le hval
  have hidx : u.idx.toNat = n := by rw [heff.idx, BitVec.toNat_ofNat, Nat.mod_eq_of_lt (by omega)]
  have hexec := exec_record_next h hp
  rw [hu, payloadLoop_badBank (by simpa using hn) (by rw [heff.stream]; omega) (hidx ▸ hloc), raised_andThen,
    raised_thenDo] at hexec
  exact ⟨_, hexec, heff.withOtherRegisters .., by simp [hupos], rfl, rfl, hcrc, hacc⟩

/-! ### What a record leaves alone (R131–R135, State written) -/

/-- `t` differs from `s` in nothing that the record `r` leaves alone. -/
structure RecordKeeps (r : RecordFields) (s t : State) : Prop where
  stream : t.stream = s.stream
  devid : t.devid = s.devid
  addr : t.addr = s.addr
  crcAcc : ctrlUseCrc r.ctrl = false → t.crc = s.crc ∧ t.acc = s.acc
  image : ∀ l, (∀ k, k < r.payload.length → payloadLoc r.bank r.off k ≠ some l) → imgRead t l = imgRead s l

theorem RecordKeeps.trans {r : RecordFields} {s t u : State} (h : RecordKeeps r s t) (h' : RecordKeeps r t u) :
    RecordKeeps r s u where
  stream := h'.stream.trans h.stream
  devid := h'.devid.trans h.devid
  addr := h'.addr.trans h.addr
  crcAcc hu := by
    obtain ⟨hcrc, hacc⟩ := h.crcAcc hu
    obtain ⟨hcrc', hacc'⟩ := h'.crcAcc hu
    exact ⟨hcrc'.trans hcrc, hacc'.trans hacc⟩
  image l hl := (h'.image l hl).trans (h.image l hl)

/-- What two procedures leave alone, their sequence leaves alone. -/
theorem RecordKeeps.andThen {r : RecordFields} {s : State} {f : Flow} (h : RecordKeeps r s f.state) {k : State → Flow}
    (hk : ∀ u, RecordKeeps r u (k u).state) : RecordKeeps r s (f.andThen k).state := by
  cases f with
  | going u => exact h.trans (hk u)
  | raised u => exact h

theorem recordBody_keeps {r : RecordFields} (hlen : r.payload.length ≤ 256) (s : State) :
    RecordKeeps r s (recordBody r.ctrl r.bank r.off r.payload s).state := by
  obtain ⟨⟨p, ph, e, ct, b, n, k, m, m', hrest⟩, himg⟩ := recordBody_frame r.ctrl r.bank r.off r.payload s hlen
  refine ⟨?_, ?_, ?_, fun _ => ?_, himg⟩ <;> rw [hrest]
  exact ⟨rfl, rfl⟩

theorem trailerTerm_keeps (r : RecordFields) (term : Byte) (s : State) :
    RecordKeeps r s (trailerTerm term s).state := by
  obtain ⟨p, ph, e, hrest⟩ := trailerTerm_frame term s
  rw [hrest]
  exact ⟨rfl, rfl, rfl, fun _ => ⟨rfl, rfl⟩, fun _ _ => rfl⟩

theorem trailerCrc_keeps {r : RecordFields} (hu : ctrlUseCrc r.ctrl = true) (crc : BitVec 16) (s : State) :
    RecordKeeps r s (trailerCrc crc s).state := by
  obtain ⟨p, ph, e, c, a, hrest⟩ := trailerCrc_frame crc s
  rw [hrest]
  exact ⟨rfl, rfl, rfl, fun hno => by rw [hu] at hno; contradiction, fun _ _ => rfl⟩

theorem trailerOf_keeps {i : Instr} {r : RecordFields} (h : recordFields i = some r) (s : State) :
    RecordKeeps r s (trailerOf i s).state := by
  cases i with
  | hdr => cases h
  | recTL => exact trailerTerm_keeps ..
  | recTC => exact trailerTerm_keeps ..
  | recCL => cases h; exact trailerCrc_keeps (by simp) _ _
  | recCC => cases h; exact trailerCrc_keeps (by simp) _ _

theorem setPhase_keeps (r : RecordFields) (p : Phase) (s : State) : RecordKeeps r s (setPhase p s) :=
  ⟨rfl, rfl, rfl, fun _ => ⟨rfl, rfl⟩, fun _ _ => rfl⟩

/-- A record that has a next state is in its phase (R81). -/
theorem phase_of_exec_record {i : Instr} {r : RecordFields} (h : recordFields i = some r) {s t : State}
    (ht : exec i s = .next t) : s.phase = .ctrl := by
  by_contra hp
  rw [exec_record h, inContext_of_ne fun hc => hp ((context_laterFrame_iff _).1 hc)] at ht
  cases ht

/-- Settles O25: the body, the trailer and the last phase each leave these alone. -/
theorem recordFrame : Obligations.RecordFrame := by
  unfold Obligations.RecordFrame
  intro s t i r h hlen ht
  rw [exec_record_next h (phase_of_exec_record h ht)] at ht
  cases ht
  obtain ⟨hstream, hdevid, haddr, hcrc, himg⟩ := ((recordBody_keeps hlen s).andThen (trailerOf_keeps h)).andThen
    (k := fun u => .going (setPhase (nextPhase r.ctrl) u)) (setPhase_keeps r (nextPhase r.ctrl))
  exact ⟨hstream, hdevid, haddr, hcrc, himg⟩

/-! ### The record's byte steps (R136–R139) -/

/-- The latched count of a count byte: its value in nine bits, or 256 for 0 (R75, R138). -/
theorem ofNat_payloadLength (v : Byte) :
    BitVec.ofNat 9 (payloadLength v) = if v = 0 then 256#9 else v.setWidth 9 := by
  unfold payloadLength
  split
  · rfl
  · exact BitVec.ofNat_toNat ..

/-- Settles O34: the rules of the three phases of `PREFIX`. -/
theorem byteStepRecordPrefix : Obligations.ByteStepRecordPrefix := by
  unfold Obligations.ByteStepRecordPrefix
  refine fun s v hv => ⟨fun hp => byteStep_of_consumed hv (.ctrl hp), fun hp => byteStep_of_consumed hv (.bank hp),
    fun hp => ?_⟩
  rw [byteStep_of_consumed hv (.count hp), ← ofNat_payloadLength]
  rfl

/-- Settles O35: the two rules of `P_DATA`; what the stored byte does to the image is what a payload byte does. -/
theorem byteStepPayload : Obligations.ByteStepPayload := by
  unfold Obligations.ByteStepPayload
  intro s v c b n hp hv hc hb hn
  refine ⟨fun hloc => byteStep_of_consumed hv (.badBank c b n hp hc hb hn hloc), fun l hloc => ?_⟩
  have hstored := Consumed.stored (v := v) c b n l hp hc hb hn hloc
  refine ⟨_, byteStep_of_consumed hv hstored, ?_, by simp, fun l' hl' => ?_⟩
  · rw [imgWrite_rest]; rfl
  · simp [imgRead_imgWrite_other v (advance s) hl']

end Sys2Proof.Machine

namespace Sys2Proof.Machine

/-! ### Terminal phases (R157) -/

theorem running_context_of_terminal {p : Phase} (h : p = .done ∨ p = .err ∨ p = .off) :
    p.running = false ∧ p.context = none := by
  rcases h with rfl | rfl | rfl <;> exact ⟨rfl, rfl⟩

/-- Settles O6: in a terminal phase no frame begins and no byte is read. -/
theorem terminalPhasesKeepTheState : Obligations.TerminalPhasesKeepTheState := by
  unfold Obligations.TerminalPhasesKeepTheState
  refine fun s => ⟨fun hp => ?_, fun hp => if_neg hp⟩
  obtain ⟨hrun, hctx⟩ := running_context_of_terminal hp
  have hstep := byteStep_of_terminal hrun
  exact ⟨(step_of_no_context hctx).trans hstep, hstep⟩

/-! ### Trailers of whole records (R150–R152) -/

/-- A record without CRC whose terminator is wrong stops behind it, and its payload stays written (R150, R163). -/
theorem exec_record_badTerminator {i : Instr} {r : RecordFields} (h : recordFields i = some r) {term : Byte}
    (htr : trailerOf i = trailerTerm term) (hterm : term ≠ Config.TERM) {s : State} (hp : s.phase = .ctrl)
    (hlen : r.payload.length ≤ 256) (hval : PayloadValid r r.payload.length)
    (hpos : s.pos + (4 + r.payload.length) ≤ s.stream.length) :
    ∃ t, exec i s = .next t ∧ RecordEffect r r.payload.length s t ∧ t.pos = s.pos + (4 + r.payload.length) ∧
      t.phase = .err ∧ t.err = .badTerminator ∧ t.crc = s.crc ∧ t.acc = s.acc := by
  obtain ⟨u, hu, heff, hupos, -, hcrc, hacc⟩ := exec_record_to_trailer h hp hlen hval (by omega)
  rw [htr, trailerTerm_of_lt (by rw [heff.stream]; omega), if_neg hterm, raised_thenDo] at hu
  exact ⟨_, hu, heff.withOtherRegisters .., by show u.pos + 1 = _; omega, rfl, rfl, hcrc, hacc⟩

/-- Settles O23: both forms have the terminator trailer, which is reached with the payload in the image. -/
theorem recordStopsAtABadTerminator : Obligations.RecordStopsAtABadTerminator := by
  unfold Obligations.RecordStopsAtABadTerminator
  intro s i x off bank payload term r hi hr hp hlen hval hterm hpos
  rcases hi with rfl | rfl
  · cases hr; exact exec_record_badTerminator rfl rfl hterm hp hlen hval hpos
  · cases hr; exact exec_record_badTerminator rfl rfl hterm hp hlen hval hpos

/-- The two states differ at most in `CRC` and `ACC`, the registers that a CRC trailer writes (R151). -/
def AgreeButCrcAcc (t t' : State) : Prop := { t' with crc := t.crc, acc := t.acc } = t

/-- The CRC trailer ends in one of three ways by the number of bytes left, whatever the value is (R151, R152). -/
theorem trailerCrc_agree (v v' : BitVec 16) (p : Phase) (s : State) :
    AgreeButCrcAcc ((trailerCrc v s).thenDo (setPhase p)).state ((trailerCrc v' s).thenDo (setPhase p)).state := by
  rcases Nat.lt_trichotomy (s.pos + 1) s.stream.length with h | h | h
  · rw [trailerCrc_going h, trailerCrc_going h]; rfl
  · rw [trailerCrc_end1 h, trailerCrc_end1 h]; rfl
  · rw [trailerCrc_end0 (by omega), trailerCrc_end0 (by omega)]; rfl

/-- Two records that differ in their CRC value alone do the same but for `CRC` and `ACC` (R152). -/
theorem exec_record_crc_agree {i i' : Instr} {r : RecordFields} (h : recordFields i = some r)
    (h' : recordFields i' = some r) {v v' : BitVec 16} (htr : trailerOf i = trailerCrc v)
    (htr' : trailerOf i' = trailerCrc v') {s : State} (hp : s.phase = .ctrl) :
    ∃ t t', exec i s = .next t ∧ exec i' s = .next t' ∧ AgreeButCrcAcc t t' := by
  refine ⟨_, _, exec_record_next h hp, exec_record_next h' hp, ?_⟩
  rw [htr, htr']
  cases recordBody r.ctrl r.bank r.off r.payload s with
  | going u => exact trailerCrc_agree v v' _ u
  | raised u => exact rfl

/-- Settles O27: no part of a record but the CRC trailer has the value, and that latches it unread. -/
theorem crcValueIsNotChecked : Obligations.CrcValueIsNotChecked := by
  unfold Obligations.CrcValueIsNotChecked
  intro s x off b p v v' hp
  exact ⟨exec_record_crc_agree (i := .recCL x off b p v) (i' := .recCL x off b p v') rfl rfl rfl rfl hp,
    exec_record_crc_agree (i := .recCC x off b p v) (i' := .recCC x off b p v') rfl rfl rfl rfl hp⟩

/-! ### The trailer's byte steps (R153–R156) -/

/-- Settles O36: the two rules of `P_TERM`; in a run the payload is complete there and `USE_CRC` is clear. -/
theorem byteStepTerminator : Obligations.ByteStepTerminator := by
  unfold Obligations.ByteStepTerminator
  intro s v c hp hv hc
  exact ⟨fun h => byteStep_of_consumed hv (.term c hp hc h), fun h =>
    ⟨byteStep_of_consumed hv (.badTerminator c hp hc h), fun hi =>
      ⟨hi.progress.trailer (.inl hp), hi.progress.term hp c hc⟩⟩⟩

/-- Two folded bytes fit into `CRC` (R155). -/
theorem foldByte_setWidth16_toNat {acc : BitVec 32} (h : acc.toNat < 2 ^ 8) (v : Byte) :
    ((foldByte acc v).setWidth 16).toNat = acc.toNat * 2 ^ 8 + v.toNat := by
  have hv := v.isLt
  rw [BitVec.toNat_setWidth, foldByte_toNat (by omega)]
  omega

/-- `CRC` is written in `P_CRC1` only (R155). -/
theorem Consumed.crc_eq {v : Byte} {s t : State} (h : Consumed v s t) :
    t.crc = if s.phase = .crc1 then some ((foldByte s.acc v).setWidth 16) else s.crc := by
  cases h <;> simp [*]

/-- Settles O37: the rules of the two CRC phases, and every other rule leaves `CRC`. -/
theorem byteStepCrc : Obligations.ByteStepCrc := by
  unfold Obligations.ByteStepCrc
  refine ⟨fun s v hp hv => byteStep_of_consumed hv (.crc0 hp), fun s v c hp hv hc =>
    ⟨byteStep_of_consumed hv (.crc1 c hp hc), fun hi => foldByte_setWidth16_toNat (hi.accBounds.crc1 hp) v⟩,
    fun s t h hp => ?_⟩
  rcases byteStep_next h with ⟨-, rfl⟩ | ⟨-, -, rfl⟩ | ⟨v, -, -, hc⟩
  · rfl
  · rfl
  · rw [hc.crc_eq, if_neg hp]

/-- Only an accepted trailer completes the decode (R156). -/
theorem Consumed.trailer_of_done {v : Byte} {s t : State} (h : Consumed v s t) (ht : t.phase = .done) :
    s.phase = .term ∨ s.phase = .crc1 := by
  cases h
  case term c hp hc hv => exact .inl hp
  case crc1 c hp hc => exact .inr hp
  case stored c b n l hp hc hb hn hl =>
    rcases phase_after_stored (s.idx + 1) n c with ⟨-, e⟩ | ⟨-, -, e⟩ | ⟨-, -, e⟩ <;>
      rw [setPhase_phase, e] at ht <;> cases ht
  all_goals cases ht

/-- The byte that completes a trailer, which is a right terminator or the second CRC byte, leads on by `CONT` (R156). -/
theorem byteStep_trailer_accepted {s t : State} {v c : Byte} (hp : s.phase = .term ∨ s.phase = .crc1)
    (hc : s.ctrl = some c) (hv : s.stream[s.pos]? = some v) (hterm : s.phase = .term → v = Config.TERM)
    (h : byteStep s = .next t) : t.phase = nextPhase c := by
  rcases hp with hp | hp
  · rw [byteStep_of_consumed hv (.term c hp hc (hterm hp))] at h
    cases h; rfl
  · rw [byteStep_of_consumed hv (.crc1 c hp hc)] at h
    cases h; rfl

/-- Settles O38: the trailer accepted, the terminator wrong, the stream at its end; and no other rule leads to
`P_DONE`. -/
theorem continuationDecidesAfterTheTrailer : Obligations.ContinuationDecidesAfterTheTrailer := by
  unfold Obligations.ContinuationDecidesAfterTheTrailer
  refine ⟨fun s t c hp hc h => ⟨?_, ?_, fun hl => ?_⟩, fun s t h hs ht => ?_⟩
  · rintro ⟨v, hv, hterm⟩
    exact byteStep_trailer_accepted hp hc hv hterm h
  · rintro ⟨v, hv, hpt, hne⟩
    rw [byteStep_of_consumed hv (.badTerminator c hpt hc hne)] at h
    cases h; exact ⟨rfl, rfl⟩
  · have hr : s.phase.running = true := by rcases hp with hp | hp <;> rw [hp] <;> rfl
    rw [byteStep_of_end hr hl] at h
    cases h; exact ⟨rfl, rfl⟩
  · rcases byteStep_next h with ⟨-, rfl⟩ | ⟨-, -, rfl⟩ | ⟨v, -, -, hcons⟩
    · exact absurd ht hs
    · cases ht
    · exact hcons.trailer_of_done ht

end Sys2Proof.Machine

namespace Sys2Proof.Machine

/-! ### Raising an error (R160–R168) -/

/-- Settles O4: the two fields that `raise` writes, and the sequencing after it. -/
theorem raiseWritesErrAndPhaseOnly : Obligations.RaiseWritesErrAndPhaseOnly := by
  unfold Obligations.RaiseWritesErrAndPhaseOnly
  exact fun e s => ⟨raise_err e s, raise_phase e s, rfl, raised_andThen _⟩

theorem nextPhase_ne_err (c : Byte) : nextPhase c ≠ .err := by
  rcases nextPhase_cases c with ⟨-, e⟩ | ⟨-, e⟩ <;> rw [e] <;> nofun

/-- The error `e` that the byte `v`, read in state `s`, gives rise to (R162–R164). -/
inductive ByteError (v : Byte) (s : State) : Err → Prop
  | badSync : s.phase = .sync → v ≠ Config.SYNC → ByteError v s .badSync
  | badTerminator : s.phase = .term → v ≠ Config.TERM → ByteError v s .badTerminator
  | badBank (c b : Byte) : s.phase = .data → s.ctrl = some c → s.bank = some b →
      payloadLoc b (ctrlOffset c) s.idx.toNat = none → ByteError v s .badBank

/-- A byte that is read either raises its error behind it, or leaves `ERR` and does not lead to `P_ERR` (R165). -/
theorem Consumed.raises_or_keeps_err {v : Byte} {s t : State} (h : Consumed v s t) :
    (∃ e, ByteError v s e ∧ t = raise e (advance s)) ∨ (t.err = s.err ∧ t.phase ≠ .err) := by
  cases h
  case badSync hp hv => exact .inl ⟨_, .badSync hp hv, rfl⟩
  case badBank c b n hp hc hb hn hloc => exact .inl ⟨_, .badBank c b hp hc hb hloc, rfl⟩
  case badTerminator c hp hc hv => exact .inl ⟨_, .badTerminator hp hv, rfl⟩
  case stored c b n l hp hc hb hn hloc =>
    refine .inr ⟨by simp, ?_⟩
    rcases phase_after_stored (s.idx + 1) n c with ⟨-, e⟩ | ⟨-, -, e⟩ | ⟨-, -, e⟩ <;> rw [e] <;> nofun
  case term c hp hc hv => exact .inr ⟨rfl, nextPhase_ne_err c⟩
  case crc1 c hp hc => exact .inr ⟨rfl, nextPhase_ne_err c⟩
  all_goals exact .inr ⟨rfl, nofun⟩

/-- Settles O39: a step of a terminal phase, the end of the stream, or a byte, which raises at most its own error. -/
theorem eachErrorHasItsPhase : Obligations.EachErrorHasItsPhase := by
  unfold Obligations.EachErrorHasItsPhase
  intro s t h
  rcases byteStep_next h with ⟨hr, rfl⟩ | ⟨hr, hend, rfl⟩ | ⟨v, hv, -, hc⟩
  · exact .inl ⟨rfl, em _⟩
  · exact .inr ⟨rfl, .inl ⟨rfl, hr, hend⟩, fun hi => hi.err_of_running hr⟩
  · rcases hc.raises_or_keeps_err with ⟨e, he, rfl⟩ | ⟨herr, hphase⟩
    · refine .inr ⟨rfl, .inr ?_, fun hi => hi.err_of_running hc.running⟩
      cases he with
      | badSync hp hne => exact .inl ⟨rfl, hp, v, hv, hne⟩
      | badTerminator hp hne => exact .inr (.inl ⟨rfl, hp, v, hv, hne⟩)
      | badBank c b hp hctrl hb hloc => exact .inr (.inr ⟨rfl, hp, c, b, hctrl, hb, hloc⟩)
    · exact .inl ⟨herr, .inr hphase⟩

end Sys2Proof.Machine

namespace Sys2Proof.Machine

/-! ### The end of a run (R194) -/

theorem terminal_of_not_running {p : Phase} (h : p.running = false) : p.terminal = true := by
  rw [Phase.terminal, h]; rfl

/-- The model's machine is the machine of frame steps. -/
theorem core_run_eq_run (k : Nat) (s : State) : core.run k s = (machineOf step).run k s := rfl

/-- Settles O57: each step of either granularity is at least one byte step, which ends the run or reads a byte, and
there are only `N − POS` bytes left. -/
theorem everyRunEnds : Obligations.EveryRunEnds := by
  unfold Obligations.EveryRunEnds
  refine fun s hi => ⟨?_, ?_⟩
  · obtain ⟨-, t, hrun, -, ht⟩ :=
      run_reaches_terminal (fun _ => byteStep_is_byteRun) _ hi (.inr (Nat.lt_succ_self _))
    exact ⟨t, (byteRun_eq_run _ s).trans hrun, terminal_of_not_running ht⟩
  · obtain ⟨-, t, hrun, -, ht⟩ := run_reaches_terminal (fun _ => step_is_byteRun) _ hi (.inr (Nat.lt_succ_self _))
    exact ⟨t, (core_run_eq_run _ s).trans hrun, terminal_of_not_running ht⟩

/-! ### The Decoded Configuration (R193, R196) -/

theorem decodedConfiguration_eq_some_iff (s : State) (g : DecodedConfiguration) :
    decodedConfiguration s = some g ↔
      s.phase = .done ∧ s.devid = some g.devid ∧ s.addr = some g.addr ∧ g.sram = s.sram ∧ g.lut = s.lut := by
  obtain ⟨d, a, sram, lut⟩ := g
  by_cases hp : s.phase = .done
  · rw [decodedConfiguration, if_pos hp]
    cases hd : s.devid <;> cases ha : s.addr <;> simp [hp, eq_comm]
  · rw [decodedConfiguration, if_neg hp]
    simp [hp]

/-- In `P_DONE` the two latches of the header are filled (R31 d). -/
theorem Inv.header_of_done {s : State} (hi : Inv s) (hp : s.phase = .done) :
    (∃ d, s.devid = some d) ∧ ∃ a, s.addr = some a := by
  have hd := hi.latches.devidAfter (by rw [hp]; decide) (by rw [hp]; decide)
  have ha := hi.latches.addrAfter (by rw [hp]; decide) (by rw [hp]; decide)
  exact ⟨Option.isSome_iff_exists.1 hd, Option.isSome_iff_exists.1 ha⟩

/-- Settles O56: outside `P_DONE` there is no configuration, and in it the header's latches are filled. -/
theorem configurationExactlyWhenDone : Obligations.ConfigurationExactlyWhenDone := by
  unfold Obligations.ConfigurationExactlyWhenDone
  refine fun s hi => ⟨⟨fun hp => ?_, fun hg => ?_⟩, fun g hg => ((decodedConfiguration_eq_some_iff s g).1 hg).2⟩
  · obtain ⟨⟨d, hd⟩, a, ha⟩ := hi.header_of_done hp
    have hg := (decodedConfiguration_eq_some_iff s ⟨d, a, s.sram, s.lut⟩).2 ⟨hp, hd, ha, rfl, rfl⟩
    exact Option.ne_none_iff_exists'.2 ⟨_, hg⟩
  · obtain ⟨g, hg⟩ := Option.ne_none_iff_exists'.1 hg
    exact ((decodedConfiguration_eq_some_iff s g).1 hg).1

/-! ### The start event (R190, R191) -/

theorem startEvent_of_not_running {s : State} (h : s.phase.running = false) (S : List Byte) :
    startEvent S s = .next (startState S) :=
  if_pos (terminal_of_not_running h)

/-- Settles O2: where no run is in progress, the start event answers `startState S`, in which `s` does not occur. -/
theorem startEventErasesTheLastRun : Obligations.StartEventErasesTheLastRun := by
  unfold Obligations.StartEventErasesTheLastRun
  intro S s s' hs hs'
  have hstart := startEvent_of_not_running (running_context_of_terminal hs.rotate).1 S
  have hstart' := startEvent_of_not_running (running_context_of_terminal hs'.rotate).1 S
  exact ⟨hstart, hstart.trans hstart'.symm⟩

end Sys2Proof.Machine
